-- ==== Sys2Proof/Word.lean ====
section
/-! DEFINITION. The words of the engine: the byte, the byte sequence and the 16-bit configuration value
(00_scope.md R9, R10, R14). -/

namespace Sys2Proof

/-- A byte: an unsigned integer of 8 bits (R9). -/
abbrev Byte := BitVec 8

/-- A byte sequence of any length, in transmission order (R10). -/
abbrev Bytes := List Byte

/-- The source's `ConfigValue`: an unsigned 16-bit integer (R14, R24). -/
abbrev ConfigValue := BitVec 16

end Sys2Proof
end

