-- ==== Sys2Proof/Syntax.lean ====
section
/-! DEFINITION. The operations, the namespaces, the 21 instructions of spec/opcode_table.json, the undecoded items
a decoder reads them from, and the names a decoder rejects by. -/

namespace Sys2Proof

/-- The operation of the command channel and of `REQ_OP` (R21, R90). -/
inductive Op where
  | connect | version | read | write
  deriving DecidableEq, Repr, Inhabited

/-- The source's `Namespace`, one of four parameter groups (R22, R51). -/
inductive Namespace where
  | setup1 | setup2 | setup3 | global
  deriving DecidableEq, Repr, Inhabited

/-- The deframer's state, the register `RXST` (R27). -/
inductive RxState where
  | accumulating | escaped
  deriving DecidableEq, Repr, Inhabited

/-- One constructor per row of spec/opcode_table.json. The four operations carry the whole item of the command
channel, the operands an operation ignores among them (R84, R192). A frame carries the lettered fields of its
row, the checksum `k` among them; an escape pair and `REQ-V` have no lettered field. -/
inductive Instr where
  /-- CONNECT (R231) -/
  | connect (ns : Namespace) (addr : Byte) (value : Int)
  /-- VERSION (R187) -/
  | version (ns : Namespace) (addr : Byte) (value : Int)
  /-- READ (R186) -/
  | read (ns : Namespace) (addr : Byte) (value : Int)
  /-- WRITE (R210) -/
  | write (ns : Namespace) (addr : Byte) (value : Int)
  /-- REQ-V, the Version request frame (R75) -/
  | reqV
  /-- REQ-R, the Read request frame (R76) -/
  | reqR (n a k : Byte)
  /-- REQ-W, the Write request frame (R77) -/
  | reqW (n a l h k : Byte)
  /-- RSP-V, the response frame of VERSION and CONNECT (R78) -/
  | rspV (c : Byte) (p : Bytes) (k : Byte)
  /-- RSP-R, the response frame of READ (R79) -/
  | rspR (l h k : Byte)
  /-- RSP-W, the response frame of WRITE (R80) -/
  | rspW (n a l h k : Byte)
  /-- ESC_C3, the escape pair `C3 C3` (R85) -/
  | escC3
  /-- ESC_3C, the escape pair `C3 3C` (R85) -/
  | esc3C
  /-- ESC_55, the escape pair `C3 55` (R85) -/
  | esc55
  /-- QUOTE (R101) -/
  | quote (s : Bytes)
  /-- UNQUOTE, one input byte (R105) -/
  | unquote (b : Byte)
  /-- CKSUM (R120) -/
  | cksum (s : Bytes)
  /-- CK_CLEAR (R122) -/
  | ckClear
  /-- CK_ADD (R123) -/
  | ckAdd (b : Byte)
  /-- ENCODE (R130) -/
  | encode (command : Byte) (payload : Bytes)
  /-- RXBYTE, one received byte (R152) -/
  | rxbyte (b : Byte)
  /-- CHECKFRAME, on the buffer `RXBUF` (R157) -/
  | checkframe
  deriving DecidableEq, Repr

/-- One item of the command channel: `(op[1:0], ns[1:0], addr[7:0], value)`, `value` the signed operand taken as
an unbounded integer (R40, R84, decision D5). -/
structure Command where
  op : BitVec 2
  ns : BitVec 2
  addr : Byte
  value : Int
  deriving DecidableEq, Repr

/-- A call of a sub-block's primitive. The table gives these rows no bit pattern ("never selected by a bit
pattern", R94), so they are named, not encoded. -/
inductive UnitCall where
  | quote (s : Bytes)
  | unquote (b : Byte)
  | cksum (s : Bytes)
  | ckClear
  | ckAdd (b : Byte)
  | encode (command : Byte) (payload : Bytes)
  | checkframe
  deriving DecidableEq, Repr

/-- What a decoder reads: an item of the command channel, a byte of the receive channel, the two bytes of an escape
pair, a frame image (R71), or a primitive called by name. -/
inductive Item where
  | command (c : Command)
  | received (b : Byte)
  | pair (marker literal : Byte)
  | image (f : Bytes)
  | unit (u : UnitCall)
  deriving DecidableEq, Repr

/-- The names a decoder rejects by. Safe: an item with one of these names is no row of the table. -/
inductive DecodeError where
  /-- the first byte of a pair is not the escape marker -/
  | notEscapeMarker
  /-- the second byte of a pair is not reserved (R85) -/
  | notReservedLiteral
  /-- an image without head, sender and command -/
  | shortImage
  /-- an image that does not begin `55 55` (R71) -/
  | badHead
  /-- a sender byte that is neither 0x00 nor 0xFF (R70) -/
  | badSender
  /-- a command byte that the expected format does not have (R86, R88) -/
  | badCommand
  /-- a payload of another length than the format's (R75 to R80) -/
  | badLength
  /-- the last byte is not the tail marker (R71) -/
  | badTail
  /-- a request's namespace byte is none of FF, 00, 01, 02 (R76, R77) -/
  | badNamespace
  /-- the checksum byte is not the checksum of the body (R71) -/
  | badChecksum
  deriving DecidableEq, Repr

end Sys2Proof
end

