-- ==== Sys2Proof/Config.lean ====
section
/-! DEFINITION. What the spec leaves open: the parameter `FW_ID`, and one free value for every register that a step leaves
unspecified. None has a body, so no proof can see a value. -/

namespace Sys2Proof.Config

/-- `FW_ID`, the one known-good firmware identifier: an open parameter, a finite byte sequence
(R8, R33, decision D11). -/
opaque fwId : Bytes

/-- What `REQ_OP` holds where R198 or R290 leaves the request latch unspecified (U12). -/
opaque freeReqOp : Nat → Op

/-- What `REQ_NS` holds where the request latch is unspecified (U12). -/
opaque freeReqNs : Nat → Namespace

/-- What `REQ_ADDR` holds where the request latch is unspecified (U12). -/
opaque freeReqAddr : Nat → Byte

/-- What `REQ_VAL` holds where the request latch is unspecified (U12). -/
opaque freeReqVal : Nat → ConfigValue

/-- What `RES_STATUS` holds where the result latch is unspecified: any four bits (U12). -/
opaque freeResStatus : Nat → BitVec 4

/-- What the scratch accumulator `CK` holds between uses (R26, U12, decision D26). -/
opaque freeCk : Nat → Byte

end Sys2Proof.Config
end

