-- ==== Sys2Proof/Machine/State.lean ====
section
/-! DEFINITION. The state of the machine: the engine's eleven items (10_state.md R20), the four channels and the reset
input as plain data (R40), and the model's own fields; the faults, the refusals and the state after reset. -/

namespace Sys2Proof.Machine

/-- `PHASE`, the sequencing register (R28). -/
inductive Phase where
  | idle | tx | rx | res
  deriving DecidableEq, Repr, Inhabited

/-- The status codes by name (R250). -/
inductive Status where
  | ok | framingError | checksumError | senderError | protocolMismatchError | addressMismatchError
  | writeVerificationError | rangeError | incompatibilityError | transportError | lengthError | notConnected
  deriving DecidableEq, Repr, Inhabited

/-- The transport's answer to `TxPut` (R11, R136, R194). -/
inductive TxAnswer where
  | ok | fail
  deriving DecidableEq, Repr

/-- The transport's answer to `RxGet`: a byte, or a failure (R11, R151). -/
inductive RxItem where
  | byte (b : Byte)
  | fail
  deriving DecidableEq, Repr

/-- An item of the result channel: `(status[3:0], value[15:0], data)`, a field that holds no value being `none`
(R30, R40). -/
structure Result where
  status : BitVec 4
  value : Option ConfigValue
  data : Option Bytes
  deriving DecidableEq, Repr

/-- What CHECKFRAME returns (R157). -/
inductive CheckResult where
  | ok (command : Byte) (payload : Bytes)
  | error (e : Status)
  deriving DecidableEq, Repr

/-- What the last primitive called by itself answered. The MODEL's own: the spec gives a pure function's result no
register (log entry 5). -/
inductive UnitOut where
  | none
  | bytes (s : Bytes)
  | byte (b : Byte)
  | literal (out : Option (Byte × Bool))
  | checked (r : CheckResult)
  deriving DecidableEq, Repr

/-- Faults. Every error of the spec is a status code and a next state (R262), so the one fault is a state that the
spec excludes. -/
inductive Fault where
  /-- Raised by the transmit step in `PHASE = Tx` with `TXQ` empty: R25 and R136 exclude it. Safe: the model stops where
  the spec gives no step, and no run from reset reaches it. -/
  | transmitQueueEmpty
  deriving DecidableEq, Repr

/-- Refusals. -/
inductive Refusal where
  /-- Raised by an arm of `exec` for an instruction without a meaning. Safe; no arm raises it. -/
  | notModelled (mnemonic : String)
  /-- Raised by `step` for an item of the bench port that the decoder rejects, with the decoder's reason. Safe: such
  an item is no row of the opcode table. -/
  | undecodable (e : DecodeError)
  deriving DecidableEq, Repr

/-- The state. The first fourteen fields are the engine's registers; the next seven are its channels and `rst`, as the
lists of what the other two agents do next and of what they have been given (R13, R34, R40); the last three are
the model's own (log entries 5, 6, 7). -/
structure State where
  /-- `PHASE` (R28) -/
  phase : Phase
  /-- `REQ_OP` (R21) -/
  reqOp : Op
  /-- `REQ_NS` (R22) -/
  reqNs : Namespace
  /-- `REQ_ADDR` (R23) -/
  reqAddr : Byte
  /-- `REQ_VAL` (R24) -/
  reqVal : ConfigValue
  /-- `TXQ` (R25) -/
  txq : Bytes
  /-- `CK` (R26) -/
  ck : Byte
  /-- `RXST` (R27) -/
  rxst : RxState
  /-- `RXBUF` (R29) -/
  rxbuf : Bytes
  /-- `RES_STATUS` (R30, R250) -/
  resStatus : BitVec 4
  /-- `RES_VALUE`, `none` where it holds no value (R30) -/
  resValue : Option ConfigValue
  /-- `RES_DATA`, `none` where it holds no value (R30) -/
  resData : Option Bytes
  /-- `CONNECTED` (R31) -/
  connected : Bool
  /-- `VERCACHE` (R32) -/
  verCache : Bytes
  /-- command channel: the operations the host offers, the one offered now first -/
  offers : List Command
  /-- transmit channel: the transport's next answers to `TxPut` -/
  txAnswers : List TxAnswer
  /-- transmit channel: the bytes handed to the transport so far, oldest first -/
  sent : Bytes
  /-- receive channel: what the transport holds and will answer to `RxGet`, oldest first (R34, U15) -/
  rx : List RxItem
  /-- result channel: how many results the host is still ready to take -/
  takes : Nat
  /-- result channel: the results the host has taken, oldest first -/
  results : List Result
  /-- `rst`: in how many steps it is asserted, each entry counting from the one before; `0` first is `rst` up now -/
  resets : List Nat
  /-- the bench port, which runs one item of the opcode table by itself (MODEL's own) -/
  bench : List Item
  /-- the answer of the last primitive run by itself (MODEL's own) -/
  unitOut : UnitOut
  /-- how many free values have been drawn (MODEL's own) -/
  free : Nat
  deriving DecidableEq, Repr

/-- The machine right after reset (R47, R290), with no operation offered and nothing in the transport. `REQ_OP`, `REQ_NS`,
`REQ_ADDR`, `REQ_VAL`, `CK` and `RES_STATUS` have no reset value in the spec: DESIGN CHOICE, unsafe (log entry 1). -/
def State.reset : State where
  phase := .idle
  reqOp := .connect
  reqNs := .setup1
  reqAddr := 0
  reqVal := 0
  txq := []
  ck := 0
  rxst := .accumulating
  rxbuf := []
  resStatus := 0
  resValue := none
  resData := none
  connected := false
  verCache := []
  offers := []
  txAnswers := []
  sent := []
  rx := []
  takes := 0
  results := []
  resets := []
  bench := []
  unitOut := .none
  free := 0

end Sys2Proof.Machine
end

