-- ==== Sys2Proof/Machine/Operands.lean ====
section
/-! DEFINITION. The constants of 00_scope.md R7, the numeric codes of operations, namespaces and statuses, and the
assembly of operands (30_encoding.md R81 to R84, R90; 60_exceptions.md R250). -/

namespace Sys2Proof.Machine

/-- The escape marker (R7). -/
@[simp] abbrev ESC : Byte := 0xC3#8
/-- The tail marker (R7). -/
@[simp] abbrev TAIL : Byte := 0x3C#8
/-- The head-marker byte (R7). -/
@[simp] abbrev HEADB : Byte := 0x55#8
/-- The 2-byte head (R7). -/
@[simp] abbrev HEAD : Bytes := [HEADB, HEADB]
/-- The host's fixed sender id (R7). -/
@[simp] abbrev HOST_ID : Byte := 0x00#8
/-- The device's fixed responder id (R7). -/
@[simp] abbrev DEV_ID : Byte := 0xFF#8
/-- Command code Version (R7, R86). -/
@[simp] abbrev CMD_VERSION : Byte := 1#8
/-- Command code Read (R7, R86). -/
@[simp] abbrev CMD_READ : Byte := 3#8
/-- Command code Write (R7, R86). -/
@[simp] abbrev CMD_WRITE : Byte := 4#8
/-- The largest legal value to write (R7). -/
@[simp] abbrev VAL_MAX : Int := 0xFFFF

/-- The operation that a code of the command channel names (R90). -/
def opOfCode (c : BitVec 2) : Op :=
  if c = 0 then .connect else if c = 1 then .version else if c = 2 then .read else .write

/-- The code of an operation on the command channel (R90). -/
def opCode : Op → BitVec 2
  | .connect => 0
  | .version => 1
  | .read => 2
  | .write => 3

/-- The namespace that a code of the command channel names (R82). -/
def nsOfCode (c : BitVec 2) : Namespace :=
  if c = 0 then .setup1 else if c = 1 then .setup2 else if c = 2 then .setup3 else .global

/-- The code of a namespace on the command channel (R82). -/
def nsCode : Namespace → BitVec 2
  | .setup1 => 0
  | .setup2 => 1
  | .setup3 => 2
  | .global => 3

/-- `ns_byte`: the wire byte of a namespace, 0xFF for the code 3 and the zero-extended code otherwise (R82). -/
def nsByte (ns : Namespace) : Byte :=
  if nsCode ns = 3 then 0xFF else (nsCode ns).zeroExtend 8

/-- The number of a status code (R250). -/
def statusCode : Status → BitVec 4
  | .ok => 0
  | .framingError => 1
  | .checksumError => 2
  | .senderError => 3
  | .protocolMismatchError => 4
  | .addressMismatchError => 5
  | .writeVerificationError => 6
  | .rangeError => 7
  | .incompatibilityError => 8
  | .transportError => 9
  | .lengthError => 10
  | .notConnected => 11

/-- The range check of WRITE's operand: `0 ≤ value ≤ 0xFFFF` (R181). -/
def inRange (value : Int) : Bool := decide (0 ≤ value) && decide (value ≤ VAL_MAX)

/-- `REQ_VAL <- value`, for a value that passed the range check (R24). -/
def valueOf (value : Int) : ConfigValue := BitVec.ofInt 16 value

/-- `val_lo = v mod 256`, bits 7 to 0 (R81). -/
def valLo (v : ConfigValue) : Byte := v.extractLsb' 0 8

/-- `val_hi = v div 256`, bits 15 to 8 (R81). -/
def valHi (v : ConfigValue) : Byte := v.extractLsb' 8 8

/-- Two received bytes assembled: `b0 + 256 * b1`, unsigned (R81). -/
def joinValue (lo hi : Byte) : ConfigValue := BitVec.ofNat 16 (lo.toNat + 256 * hi.toNat)

/-- The command byte each operation transmits (R90). -/
def wireCommand : Op → Byte
  | .connect => CMD_VERSION
  | .version => CMD_VERSION
  | .read => CMD_READ
  | .write => CMD_WRITE

/-- The request payload of each operation (R183, R184, R185). -/
def requestPayload (op : Op) (ns : Namespace) (addr : Byte) (v : ConfigValue) : Bytes :=
  match op with
  | .connect => []
  | .version => []
  | .read => [nsByte ns, addr]
  | .write => [nsByte ns, addr, valLo v, valHi v]

end Sys2Proof.Machine
end

