-- ==== Sys2Proof/Machine/Flags.lean ====
section
/-! DEFINITION. The engine's one flag, `RXST`, and the completion mark (10_state.md R27): the unescaping step
(40_escaper.md R105) and the collecting step of the deframer (43_deframer_rx.md R152). -/

namespace Sys2Proof.Machine

/-- `unquote_step`: the new state, and the output byte with its mark `lit` if there is one (R105). -/
def unquoteStep (st : RxState) (b : Byte) : RxState × Option (Byte × Bool) :=
  match st with
  | .accumulating => if b = ESC then (.escaped, none) else (.accumulating, some (b, false))
  | .escaped => (.accumulating, some (b, true))

/-- `unquote` of a sequence from a state: the final state and the outputs (R105). -/
def unquoteFrom (st : RxState) : Bytes → RxState × List (Byte × Bool)
  | [] => (st, [])
  | b :: s =>
    match unquoteStep st b with
    | (st', out) => ((unquoteFrom st' s).1, out.toList ++ (unquoteFrom st' s).2)

/-- `unquote` of a whole sequence, from `Accumulating` (R105). -/
def unquote (s : Bytes) : RxState × List (Byte × Bool) := unquoteFrom .accumulating s

/-- The collecting part of RXBYTE: `(RXST, RXBUF, b)` to `(RXST, RXBUF, complete)` (R152). -/
def collect (st : RxState) (buf : Bytes) (b : Byte) : RxState × Bytes × Bool :=
  match st with
  | .escaped => (.accumulating, buf ++ [b], false)
  | .accumulating =>
    if b = ESC then (.escaped, buf, false)
    else (.accumulating, buf ++ [b], decide (b = TAIL))

/-- RXBYTE over a stream, up to the byte that completes a frame: the state and the buffer it leaves and, if a frame
completed, the bytes that are not taken any more (R151, R152, R155). -/
def collectUntil (st : RxState) (buf : Bytes) : Bytes → RxState × Bytes × Option Bytes
  | [] => (st, buf, none)
  | b :: s =>
    match collect st buf b with
    | (st', buf', done) => if done then (st', buf', some s) else collectUntil st' buf' s

end Sys2Proof.Machine
end

