-- ==== Sys2Proof/Machine/Wire.lean ====
section
/-! DEFINITION. The pure functions on bytes: the escaper (40_escaper.md), the checksum (41_checksum.md), the frame
(30_encoding.md, 42_framer_tx.md) and the checks on a completed frame (43_deframer_rx.md). -/

namespace Sys2Proof.Machine

/-- The three reserved byte values (R100). -/
def reserved (b : Byte) : Bool := b == ESC || b == TAIL || b == HEADB

/-- `quote1` (R101). -/
def quote1 (b : Byte) : Bytes := if reserved b then [ESC, b] else [b]

/-- `quote`, one pass over the bytes (R101). -/
def quote : Bytes → Bytes
  | [] => []
  | b :: s => quote1 b ++ quote s

/-- One whole-sequence replacement: every occurrence of `b` becomes the escape marker and `b` (R102). -/
def replaceByte (b : Byte) : Bytes → Bytes
  | [] => []
  | x :: s => (if x = b then [ESC, x] else [x]) ++ replaceByte b s

/-- Escaping by three successive replacements, the escape marker first (R102, R306). -/
def quoteByReplacement (s : Bytes) : Bytes := replaceByte HEADB (replaceByte TAIL (replaceByte ESC s))

/-- `sum(s)`: the bytes added as integers (R10, R120). -/
def byteSum : Bytes → Nat
  | [] => 0
  | b :: s => b.toNat + byteSum s

/-- `cksum(s) = sum(s) mod 256` (R120). -/
def cksum (s : Bytes) : Byte := BitVec.ofNat 8 (byteSum s % 256)

/-- One addition into the accumulator: `(CK + b) mod 256` (R123). -/
def ckAdd (ck b : Byte) : Byte := BitVec.ofNat 8 ((ck.toNat + b.toNat) % 256)

/-- The body of a frame, the checksummed bytes (R14). -/
def body (sender command : Byte) (payload : Bytes) : Bytes := [sender, command] ++ payload

/-- The ebody: the body and its checksum, the escaped region (R14, R72). -/
def ebody (sender command : Byte) (payload : Bytes) : Bytes :=
  body sender command payload ++ [cksum (body sender command payload)]

/-- The frame image: the frame with escaping undone (R71). -/
def image (sender command : Byte) (payload : Bytes) : Bytes := HEAD ++ ebody sender command payload ++ [TAIL]

/-- `frame`: head, escaped ebody, tail (R130). -/
def frame (sender command : Byte) (payload : Bytes) : Bytes :=
  HEAD ++ quote (ebody sender command payload) ++ [TAIL]

/-- `encode`, the source's PacketCodec.encode (R130). -/
def encodeFrame (command : Byte) (payload : Bytes) : Bytes := frame HOST_ID command payload

/-- The wire form of an image whose escaped region is `e`, whatever its checksum byte (R72, R74). -/
def wireForm (e : Bytes) : Bytes := HEAD ++ quote e ++ [TAIL]

/-- The request frame of an operation (R192). -/
def requestFrame (op : Op) (ns : Namespace) (addr : Byte) (v : ConfigValue) : Bytes :=
  encodeFrame (wireCommand op) (requestPayload op ns addr v)

/-- `s[i]` (R10); every use has `i < len(s)`. -/
def byteAt (s : Bytes) (i : Nat) : Byte := s.getD i 0

/-- `s[i..j)` (R10). -/
def slice (s : Bytes) (i j : Nat) : Bytes := (s.drop i).take (j - i)

/-- `check_frame`, the first failing check giving the result (R157 to R162). -/
def checkFrame (f : Bytes) : CheckResult :=
  if f.length < 2 ∨ byteAt f 0 ≠ HEADB ∨ byteAt f 1 ≠ HEADB then .error .framingError
  else if f.length < 6 then .error .framingError
  else if cksum (slice f 2 (f.length - 2)) ≠ byteAt f (f.length - 2) then .error .checksumError
  else if byteAt f 2 ≠ DEV_ID then .error .senderError
  else .ok (byteAt f 3) (slice f 4 (f.length - 2))

end Sys2Proof.Machine
end

