-- ==== Sys2Proof/Machine/Ops.lean ====
section
/-! DEFINITION. The named operations on the state: taking an error and returning from it, normal completion, the accept
step, the transmit and receive steps, reset, and the outputs. Each is one step, or part of one step, of
44_command_codec.md R199. -/

namespace Sys2Proof.Machine

/-! ### Values that a step leaves unspecified -/

/-- `CK` after a step that may have used the accumulator: a free value (R26, R138, decision D26; log entry 3). -/
def scratchCk (s : State) : State := { s with ck := Config.freeCk s.free, free := s.free + 1 }

/-- The request latch, `RES_STATUS` and `CK` left unspecified: free values; `RES_VALUE` and `RES_DATA` hold no value
(R30, R47, R198, R290; log entry 2). -/
def scratchLatches (s : State) : State :=
  { s with
    reqOp := Config.freeReqOp s.free
    reqNs := Config.freeReqNs s.free
    reqAddr := Config.freeReqAddr s.free
    reqVal := Config.freeReqVal s.free
    resStatus := Config.freeResStatus s.free
    resValue := none
    resData := none
    ck := Config.freeCk s.free
    free := s.free + 1 }

/-! ### Errors: entry and return; normal completion -/

/-- `raise E` in the operation `op`: the one entry of an error (R262). Only CONNECT loses the connection. -/
def raise (op : Op) (e : Status) (s : State) : State :=
  { s with
    resStatus := statusCode e
    resValue := none
    resData := none
    phase := .res
    connected := if op = .connect then false else s.connected
    verCache := if op = .connect then [] else s.verCache }

/-- `Result(OK, value, data)`, the normal completion (R190). -/
def complete (value : Option ConfigValue) (data : Option Bytes) (s : State) : State :=
  { s with resStatus := statusCode .ok, resValue := value, resData := data, phase := .res }

/-- The item of the result channel (R40). -/
def resultOf (s : State) : Result := ⟨s.resStatus, s.resValue, s.resData⟩

/-- The result step, the return from an error as from a success (R198, R265): the host has the result, the engine is in
its idle state, the latches are unspecified. -/
def giveResult (s : State) : State :=
  scratchLatches
    { s with results := s.results ++ [resultOf s], phase := .idle, txq := [], rxbuf := [], rxst := .accumulating }

/-! ### Accepting an operation -/

/-- The pre-send checks, the connection gate first: the status that refuses the operation, if one does
(R180, R181, R182). -/
def refusal (op : Op) (value : Int) (s : State) : Option Status :=
  match op with
  | .connect => none
  | .version => none
  | .read => if s.connected then none else some .notConnected
  | .write =>
    if s.connected then (if inRange value then none else some .rangeError) else some .notConnected

/-- The accept step for an operation that passes the checks (R192). -/
def latch (op : Op) (ns : Namespace) (addr : Byte) (value : Int) (s : State) : State :=
  let v := if op = .write then valueOf value else s.reqVal
  scratchCk
    { s with
      reqOp := op
      reqNs := ns
      reqAddr := addr
      reqVal := v
      txq := requestFrame op ns addr v
      phase := .tx }

/-- The accept or refusing-accept step (R192, R193). -/
def accept (op : Op) (ns : Namespace) (addr : Byte) (value : Int) (s : State) : State :=
  match refusal op value s with
  | some e => raise op e s
  | none => latch op ns addr value s

/-- An operation offered by the host: accepted in `Idle`, otherwise it stays offered (R43, R192). -/
def offer (op : Op) (ns : Namespace) (addr : Byte) (value : Int) (s : State) : State :=
  if s.phase = .idle then accept op ns addr value s
  else { s with offers := s.offers ++ [⟨opCode op, nsCode ns, addr, value⟩] }

/-! ### Transmitting -/

/-- `TxPut` answered `ok`: the byte is with the transport, and after the last one the turn-around (R136, R137). -/
def handOver (b : Byte) (rest : Bytes) (s : State) : State :=
  scratchCk
    (if rest = [] then
      { s with sent := s.sent ++ [b], txq := [], phase := .rx, rxst := .accumulating, rxbuf := [] }
    else { s with sent := s.sent ++ [b], txq := rest })

/-- `TxPut` answered `fail`: the transmit-failure step (R194). -/
def transmitFail (s : State) : State := scratchCk (raise s.reqOp .transportError { s with txq := [] })

/-- The transmit step on the answer that the transport gives next; with no answer the engine waits (R136, R194). -/
def transmit (s : State) : Host.Outcome State Fault Refusal :=
  match s.txq with
  | [] => .fault .transmitQueueEmpty
  | b :: rest =>
    match s.txAnswers with
    | [] => .next s
    | .fail :: more => .next (transmitFail { s with txAnswers := more })
    | .ok :: more => .next (handOver b rest { s with txAnswers := more })

/-- At most `n` transmit steps, while the engine is in `Tx`. -/
def transmitMany : Nat → State → Host.Outcome State Fault Refusal
  | 0, s => .next s
  | n + 1, s =>
    if s.phase = .tx then
      match transmit s with
      | .next s' => transmitMany n s'
      | .fault e => .fault e
      | .refused e => .refused e
    else .next s

/-- A request frame goes out: if it is the frame that the engine is sending, its transmit steps; otherwise nothing, for
the engine sends nothing in `Idle`, `Rx` or `Res` and never any other frame (R136, R139; log entry 9). -/
def transmitFrame (wire : Bytes) (s : State) : Host.Outcome State Fault Refusal :=
  if s.phase = .tx ∧ s.txq = wire then transmitMany wire.length s else .next s

/-! ### Receiving -/

/-- The parser of a READ response (R188, R189). -/
def evaluateRead (command : Byte) (payload : Bytes) (s : State) : State :=
  if command ≠ CMD_READ then raise .read .protocolMismatchError s
  else match payload with
    | [lo, hi] => complete (some (joinValue lo hi)) none s
    | _ => raise .read .lengthError s

/-- The write-confirmation validator: command, length, address, value (R211 to R215). -/
def evaluateWrite (command : Byte) (payload : Bytes) (s : State) : State :=
  if command ≠ CMD_WRITE then raise .write .protocolMismatchError s
  else match payload with
    | [n, a, lo, hi] =>
      if n ≠ nsByte s.reqNs ∨ a ≠ s.reqAddr then raise .write .addressMismatchError s
      else if joinValue lo hi ≠ s.reqVal then raise .write .writeVerificationError s
      else complete none none s
    | _ => raise .write .lengthError s

/-- The firmware-identifier gate (R231, R232, R233). The command byte is not looked at. -/
def evaluateConnect (payload : Bytes) (s : State) : State :=
  if payload = Config.fwId then
    complete none (some payload) { s with connected := true, verCache := payload }
  else raise .connect .incompatibilityError s

/-- The evaluation step on the completed `RXBUF`; `REQ_OP` chooses the format (R197). -/
def evaluate (s : State) : State :=
  match checkFrame s.rxbuf with
  | .error e => raise s.reqOp e s
  | .ok command payload =>
    match s.reqOp with
    | .connect => evaluateConnect payload s
    | .version => complete none (some payload) s
    | .read => evaluateRead command payload s
    | .write => evaluateWrite command payload s

/-- RXBYTE, with the evaluation in the same step if the frame is complete (R152). -/
def receiveByte (b : Byte) (s : State) : State :=
  match collect s.rxst s.rxbuf b with
  | (st, buf, done) =>
    let s' := scratchCk { s with rxst := st, rxbuf := buf }
    if done then evaluate s' else s'

/-- `RxGet` answered `fail`: the receive-failure step (R196). -/
def receiveFail (s : State) : State := scratchCk (raise s.reqOp .transportError s)

/-- Bytes arrive at the transport, which keeps them in order without bound (R34, U15). -/
def arrive (bs : Bytes) (s : State) : State := { s with rx := s.rx ++ bs.map .byte }

/-- One receive transfer of the oldest item the transport holds; with none the engine stays as it is (R151, R155). -/
def takeOne (s : State) : State :=
  match s.rx with
  | [] => s
  | .byte b :: more => receiveByte b { s with rx := more }
  | .fail :: more => receiveFail { s with rx := more }

/-- At most `n` receive transfers, while the engine is in `Rx` (R42). -/
def takeMany : Nat → State → State
  | 0, s => s
  | n + 1, s => if s.phase = .rx then takeMany n (takeOne s) else s

/-- Bytes arrive, and the engine takes as many transfers as there are bytes, if it is receiving (R42, R303; log entry 8). -/
def receiveBytes (bs : Bytes) (s : State) : State := takeMany bs.length (arrive bs s)

/-! ### Reset and outputs -/

/-- The reset step: enabled in every phase, it overrides every other step, produces no result and leaves transport and
host alone (R47, R290, R291). -/
def resetEngine (s : State) : State :=
  scratchLatches
    { s with phase := .idle, rxst := .accumulating, rxbuf := [], txq := [], connected := false, verCache := [] }

/-- What the engine drives on its channels and outputs (R40, R41). -/
structure Outputs where
  opReady : Bool
  txValid : Bool
  txData : Option Byte
  rxReady : Bool
  resValid : Bool
  connected : Bool
  verCache : Bytes
  deriving DecidableEq, Repr

/-- The outputs of a state (R41): `tx_data` is `TXQ[0]` while `tx_valid` is up. -/
def outputs (s : State) : Outputs where
  opReady := decide (s.phase = .idle)
  txValid := decide (s.phase = .tx)
  txData := if s.phase = .tx then s.txq.head? else none
  rxReady := decide (s.phase = .rx)
  resValid := decide (s.phase = .res)
  connected := s.connected
  verCache := s.verCache

end Sys2Proof.Machine
end

