-- ==== Sys2Proof/Machine/Checksum.lean ====
section
/-! DEFINITION. The checksum's instructions: CKSUM, CK_CLEAR, CK_ADD (41_checksum.md). -/

namespace Sys2Proof.Machine

/-- CKSUM: a pure function; its result stands in the model's `unitOut` (R120). -/
def execCksum (bs : Bytes) (s : State) : Host.Outcome State Fault Refusal :=
  .next { s with unitOut := .byte (cksum bs) }

/-- CK_CLEAR: `CK <- 0` (R122). -/
def execCkClear (s : State) : Host.Outcome State Fault Refusal := .next { s with ck := 0 }

/-- CK_ADD: `CK <- (CK + b) mod 256` (R123). -/
def execCkAdd (b : Byte) (s : State) : Host.Outcome State Fault Refusal :=
  .next { s with ck := ckAdd s.ck b }

end Sys2Proof.Machine
end

