-- ==== Sys2Proof/Machine/Command.lean ====
section
/-! DEFINITION. The four operations of the command channel (44_command_codec.md, 45_write_confirm.md, 46_connection.md). An
operation is carried out by the steps of R199: its own meaning is the accept or the refusing accept step, which
writes the request latch from which every later step of it works. -/

namespace Sys2Proof.Machine

/-- CONNECT (R192, R231). -/
def execConnect (ns : Namespace) (addr : Byte) (value : Int) (s : State) : Host.Outcome State Fault Refusal :=
  .next (offer .connect ns addr value s)

/-- VERSION (R187, R192). -/
def execVersion (ns : Namespace) (addr : Byte) (value : Int) (s : State) : Host.Outcome State Fault Refusal :=
  .next (offer .version ns addr value s)

/-- READ (R186, R192, R193). -/
def execRead (ns : Namespace) (addr : Byte) (value : Int) (s : State) : Host.Outcome State Fault Refusal :=
  .next (offer .read ns addr value s)

/-- WRITE (R192, R193, R210). -/
def execWrite (ns : Namespace) (addr : Byte) (value : Int) (s : State) : Host.Outcome State Fault Refusal :=
  .next (offer .write ns addr value s)

end Sys2Proof.Machine
end

