-- ==== Sys2Proof/Machine/Deframer.lean ====
section
/-! DEFINITION. The receive deframer's instructions: RXBYTE, CHECKFRAME and the three response frames
(43_deframer_rx.md, 30_encoding.md R78 to R80). -/

namespace Sys2Proof.Machine

/-- RXBYTE: in `Rx` the deframer's step (R152); in any other phase the engine takes no byte and it stays in the transport
(R42, R150, R303). -/
def execRxbyte (b : Byte) (s : State) : Host.Outcome State Fault Refusal :=
  if s.phase = .rx then .next (receiveByte b s) else .next (arrive [b] s)

/-- CHECKFRAME: a pure function of `RXBUF`; its result stands in the model's `unitOut` (R157). -/
def execCheckframe (s : State) : Host.Outcome State Fault Refusal :=
  .next { s with unitOut := .checked (checkFrame s.rxbuf) }

/-- RSP-V arrives (R78, R152). -/
def execRspV (c : Byte) (p : Bytes) (k : Byte) (s : State) : Host.Outcome State Fault Refusal :=
  .next (receiveBytes (wireForm ([DEV_ID, c] ++ p ++ [k])) s)

/-- RSP-R arrives (R79, R152). -/
def execRspR (l h k : Byte) (s : State) : Host.Outcome State Fault Refusal :=
  .next (receiveBytes (wireForm [DEV_ID, CMD_READ, l, h, k]) s)

/-- RSP-W arrives (R80, R152). -/
def execRspW (n a l h k : Byte) (s : State) : Host.Outcome State Fault Refusal :=
  .next (receiveBytes (wireForm [DEV_ID, CMD_WRITE, n, a, l, h, k]) s)

end Sys2Proof.Machine
end

