-- ==== Sys2Proof/Machine/Escaper.lean ====
section
/-! DEFINITION. The escaper's instructions: QUOTE, UNQUOTE (40_escaper.md) and the three escape pairs
(30_encoding.md R85). -/

namespace Sys2Proof.Machine

/-- QUOTE: a pure function; its result stands in the model's `unitOut` (R101). -/
def execQuote (bs : Bytes) (s : State) : Host.Outcome State Fault Refusal :=
  .next { s with unitOut := .bytes (quote bs) }

/-- UNQUOTE of one byte: it reads and writes `RXST`, the state `st` of R105. -/
def execUnquote (b : Byte) (s : State) : Host.Outcome State Fault Refusal :=
  .next { s with rxst := (unquoteStep s.rxst b).1, unitOut := .literal (unquoteStep s.rxst b).2 }

/-- The pair `C3 C3` arrives (R85, R152). -/
def execEscC3 (s : State) : Host.Outcome State Fault Refusal := .next (receiveBytes [ESC, ESC] s)

/-- The pair `C3 3C` arrives (R85, R152). -/
def execEsc3C (s : State) : Host.Outcome State Fault Refusal := .next (receiveBytes [ESC, TAIL] s)

/-- The pair `C3 55` arrives (R85, R152). -/
def execEsc55 (s : State) : Host.Outcome State Fault Refusal := .next (receiveBytes [ESC, HEADB] s)

end Sys2Proof.Machine
end

