-- ==== Sys2Proof/Machine/Framer.lean ====
section
/-! DEFINITION. The transmit framer's instructions: ENCODE and the three request frames (42_framer_tx.md,
30_encoding.md R75 to R77). -/

namespace Sys2Proof.Machine

/-- ENCODE: a pure function; its result stands in the model's `unitOut` (R130). -/
def execEncode (command : Byte) (payload : Bytes) (s : State) : Host.Outcome State Fault Refusal :=
  .next { s with unitOut := .bytes (encodeFrame command payload) }

/-- REQ-V goes out (R75, R136). -/
def execReqV (s : State) : Host.Outcome State Fault Refusal :=
  transmitFrame (wireForm [HOST_ID, CMD_VERSION, 0x01]) s

/-- REQ-R goes out (R76, R136). -/
def execReqR (n a k : Byte) (s : State) : Host.Outcome State Fault Refusal :=
  transmitFrame (wireForm [HOST_ID, CMD_READ, n, a, k]) s

/-- REQ-W goes out (R77, R136). -/
def execReqW (n a l h k : Byte) (s : State) : Host.Outcome State Fault Refusal :=
  transmitFrame (wireForm [HOST_ID, CMD_WRITE, n, a, l, h, k]) s

end Sys2Proof.Machine
end

