-- ==== Sys2Proof/Machine/Dispatch.lean ====
section
/-! DEFINITION. The meaning of every instruction: one arm per constructor of Instr. -/

namespace Sys2Proof.Machine

def exec (i : Instr) (s : State) : Host.Outcome State Fault Refusal :=
  match i with
  | .connect ns addr value => Sys2Proof.Machine.execConnect ns addr value s
  | .version ns addr value => Sys2Proof.Machine.execVersion ns addr value s
  | .read ns addr value => Sys2Proof.Machine.execRead ns addr value s
  | .write ns addr value => Sys2Proof.Machine.execWrite ns addr value s
  | .reqV => Sys2Proof.Machine.execReqV s
  | .reqR n a k => Sys2Proof.Machine.execReqR n a k s
  | .reqW n a l h k => Sys2Proof.Machine.execReqW n a l h k s
  | .rspV c p k => Sys2Proof.Machine.execRspV c p k s
  | .rspR l h k => Sys2Proof.Machine.execRspR l h k s
  | .rspW n a l h k => Sys2Proof.Machine.execRspW n a l h k s
  | .escC3 => Sys2Proof.Machine.execEscC3 s
  | .esc3C => Sys2Proof.Machine.execEsc3C s
  | .esc55 => Sys2Proof.Machine.execEsc55 s
  | .quote bs => Sys2Proof.Machine.execQuote bs s
  | .unquote b => Sys2Proof.Machine.execUnquote b s
  | .cksum bs => Sys2Proof.Machine.execCksum bs s
  | .ckClear => Sys2Proof.Machine.execCkClear s
  | .ckAdd b => Sys2Proof.Machine.execCkAdd b s
  | .encode command payload => Sys2Proof.Machine.execEncode command payload s
  | .rxbyte b => Sys2Proof.Machine.execRxbyte b s
  | .checkframe => Sys2Proof.Machine.execCheckframe s

end Sys2Proof.Machine
end

