-- ==== Sys2Proof/WellFormed.lean ====
section
/-! DEFINITION. Which instructions satisfy the constraints of their row of spec/opcode_table.json: the namespace byte of a
request is one of the four, and a frame's checksum is the checksum of its body (30_encoding.md R76 to R80). -/

namespace Sys2Proof

/-- The four namespace bytes (R51, R76). -/
def isNsByte (n : Byte) : Bool := n == 0xFF || n == 0x00 || n == 0x01 || n == 0x02

/-- The constraint `k` of a frame row: the checksum of the body (R70, R71). -/
def checksumDefect (sender command : Byte) (payload : Bytes) (k : Byte) : Option DecodeError :=
  if k = Machine.cksum (Machine.body sender command payload) then none else some .badChecksum

/-- The first constraint of its row that an instruction breaks. -/
def Instr.defect : Instr → Option DecodeError
  | .connect _ _ _ => none
  | .version _ _ _ => none
  | .read _ _ _ => none
  | .write _ _ _ => none
  | .reqV => none
  | .reqR n a k =>
    if isNsByte n then checksumDefect Machine.HOST_ID Machine.CMD_READ [n, a] k else some .badNamespace
  | .reqW n a l h k =>
    if isNsByte n then checksumDefect Machine.HOST_ID Machine.CMD_WRITE [n, a, l, h] k else some .badNamespace
  | .rspV c p k => checksumDefect Machine.DEV_ID c p k
  | .rspR l h k => checksumDefect Machine.DEV_ID Machine.CMD_READ [l, h] k
  | .rspW n a l h k => checksumDefect Machine.DEV_ID Machine.CMD_WRITE [n, a, l, h] k
  | .escC3 => none
  | .esc3C => none
  | .esc55 => none
  | .quote _ => none
  | .unquote _ => none
  | .cksum _ => none
  | .ckClear => none
  | .ckAdd _ => none
  | .encode _ _ => none
  | .rxbyte _ => none
  | .checkframe => none

/-- No constraint is broken. -/
def Instr.wellFormed (i : Instr) : Bool := i.defect.isNone

end Sys2Proof
end

