-- ==== Sys2Proof/Decode.lean ====
section
/-! DEFINITION. The decoder and the encoder of the three encodings of 30_encoding.md: the command channel, the frame
images, the escape pairs; and of the items that have no bit pattern. -/

namespace Sys2Proof

open Machine in
/-- An item of the command channel (R82, R90). -/
def decodeCommand (c : Command) : Instr :=
  match opOfCode c.op with
  | .connect => .connect (nsOfCode c.ns) c.addr c.value
  | .version => .version (nsOfCode c.ns) c.addr c.value
  | .read => .read (nsOfCode c.ns) c.addr c.value
  | .write => .write (nsOfCode c.ns) c.addr c.value

open Machine in
/-- The escape pairs (R85). -/
def decodePair (marker literal : Byte) : Except DecodeError Instr :=
  if marker ≠ ESC then .error .notEscapeMarker
  else if literal = ESC then .ok .escC3
  else if literal = TAIL then .ok .esc3C
  else if literal = HEADB then .ok .esc55
  else .error .notReservedLiteral

/-- A frame whose last byte was `t`: the tail check, then the constraints of its row. -/
def framed (t : Byte) (i : Instr) : Except DecodeError Instr :=
  if t ≠ Machine.TAIL then .error .badTail
  else match i.defect with
    | none => .ok i
    | some e => .error e

open Machine in
/-- A request image after its sender byte (R75, R76, R77). -/
def decodeRequest (command : Byte) (rest : Bytes) : Except DecodeError Instr :=
  if command = CMD_VERSION then
    match rest with
    | [k, t] => if k = 0x01 then framed t .reqV else .error .badChecksum
    | _ => .error .badLength
  else if command = CMD_READ then
    match rest with
    | [n, a, k, t] => framed t (.reqR n a k)
    | _ => .error .badLength
  else if command = CMD_WRITE then
    match rest with
    | [n, a, l, h, k, t] => framed t (.reqW n a l h k)
    | _ => .error .badLength
  else .error .badCommand

open Machine in
/-- A response image after its sender byte. The expected format is chosen by the operation in progress, never by the
command byte (R94, R197). -/
def decodeResponse (expect : Op) (command : Byte) (rest : Bytes) : Except DecodeError Instr :=
  match expect with
  | .connect | .version =>
    match rest.reverse with
    | t :: k :: p => framed t (.rspV command p.reverse k)
    | _ => .error .badLength
  | .read =>
    if command ≠ CMD_READ then .error .badCommand
    else match rest with
      | [l, h, k, t] => framed t (.rspR l h k)
      | _ => .error .badLength
  | .write =>
    if command ≠ CMD_WRITE then .error .badCommand
    else match rest with
      | [n, a, l, h, k, t] => framed t (.rspW n a l h k)
      | _ => .error .badLength

open Machine in
/-- A frame image (R71, R74). -/
def decodeImage (expect : Op) (f : Bytes) : Except DecodeError Instr :=
  match f with
  | h0 :: h1 :: sender :: command :: rest =>
    if h0 ≠ HEADB ∨ h1 ≠ HEADB then .error .badHead
    else if sender = HOST_ID then decodeRequest command rest
    else if sender = DEV_ID then decodeResponse expect command rest
    else .error .badSender
  | _ => .error .shortImage

/-- A primitive called by name (R94). -/
def decodeUnit : UnitCall → Instr
  | .quote s => .quote s
  | .unquote b => .unquote b
  | .cksum s => .cksum s
  | .ckClear => .ckClear
  | .ckAdd b => .ckAdd b
  | .encode c p => .encode c p
  | .checkframe => .checkframe

/-- The decoder: total, rejecting by name. `expect` is the operation in progress, `REQ_OP` (R94). -/
def decode (expect : Op) : Item → Except DecodeError Instr
  | .command c => .ok (decodeCommand c)
  | .received b => .ok (.rxbyte b)
  | .pair m l => decodePair m l
  | .image f => decodeImage expect f
  | .unit u => .ok (decodeUnit u)

/-- The operations in progress under which an instruction is read: a response only under the operation that expects its
format (R78, R79, R80, R94), anything else under every operation. -/
def Instr.readUnder (i : Instr) (op : Op) : Bool :=
  match i with
  | .rspV _ _ _ => op == .connect || op == .version
  | .rspR _ _ _ => op == .read
  | .rspW _ _ _ _ _ => op == .write
  | _ => true

open Machine in
/-- The encoder: the item of the command channel, the frame image, the escape pair, the received byte or the call by
name that stands for an instruction (R71, R75 to R80, R85, R90). -/
def encode : Instr → Item
  | .connect ns addr value => .command ⟨0, nsCode ns, addr, value⟩
  | .version ns addr value => .command ⟨1, nsCode ns, addr, value⟩
  | .read ns addr value => .command ⟨2, nsCode ns, addr, value⟩
  | .write ns addr value => .command ⟨3, nsCode ns, addr, value⟩
  | .reqV => .image [0x55, 0x55, 0x00, 0x01, 0x01, 0x3C]
  | .reqR n a k => .image [0x55, 0x55, 0x00, 0x03, n, a, k, 0x3C]
  | .reqW n a l h k => .image [0x55, 0x55, 0x00, 0x04, n, a, l, h, k, 0x3C]
  | .rspV c p k => .image ([0x55, 0x55, 0xFF, c] ++ p ++ [k, 0x3C])
  | .rspR l h k => .image [0x55, 0x55, 0xFF, 0x03, l, h, k, 0x3C]
  | .rspW n a l h k => .image [0x55, 0x55, 0xFF, 0x04, n, a, l, h, k, 0x3C]
  | .escC3 => .pair 0xC3 0xC3
  | .esc3C => .pair 0xC3 0x3C
  | .esc55 => .pair 0xC3 0x55
  | .quote s => .unit (.quote s)
  | .unquote b => .unit (.unquote b)
  | .cksum s => .unit (.cksum s)
  | .ckClear => .unit .ckClear
  | .ckAdd b => .unit (.ckAdd b)
  | .encode c p => .unit (.encode c p)
  | .rxbyte b => .received b
  | .checkframe => .unit .checkframe

/-- The lowest `n` bytes of a number, the most significant first: the order in which the table's numbers give the bytes
of an image or a pair (the first byte crosses the channel first). -/
def bytesOfNumber : Nat → Nat → Bytes
  | 0, _ => []
  | n + 1, w => BitVec.ofNat 8 (w / 256 ^ n) :: bytesOfNumber n w

/-- A number of the command channel, the fields in the order of R40 from bit 0 up: `op` bits 1 to 0 (the table),
`ns` bits 3 to 2, `addr` bits 11 to 4, `value` from bit 12 (DESIGN CHOICE, log entry 10). -/
def commandOfNumber (w : Nat) : Command :=
  ⟨BitVec.ofNat 2 w, BitVec.ofNat 2 (w / 4), BitVec.ofNat 8 (w / 16), Int.ofNat (w / 4096)⟩

/-- The item that a row's number stands for: one byte is a command, two an escape pair, more a frame image. -/
def tableItem (nbits w : Nat) : Item :=
  match (nbits + 7) / 8 with
  | 0 => .command (commandOfNumber w)
  | 1 => .command (commandOfNumber w)
  | 2 => .pair (BitVec.ofNat 8 (w / 256)) (BitVec.ofNat 8 w)
  | n => .image (bytesOfNumber n w)

open Machine in
/-- The operation under which a number of the table is read: a response image says which by its command byte, and by
its length (DESIGN CHOICE, log entry 10: inside the machine it is `REQ_OP`). -/
def tableExpect : Item → Op
  | .image f =>
    if byteAt f 3 = CMD_READ ∧ f.length = 8 then .read
    else if byteAt f 3 = CMD_WRITE ∧ f.length = 10 then .write
    else .version
  | _ => .version

/-- The instruction that the decoder reads from a number of spec/opcode_table.json. -/
def decodeTableWord (nbits w : Nat) : Option Instr :=
  (decode (tableExpect (tableItem nbits w)) (tableItem nbits w)).toOption

end Sys2Proof
end

