-- ==== Sys2Proof/Machine/Fetch.lean ====
section
/-! DEFINITION. Which item the machine runs next, and the steps that no item selects (44_command_codec.md R199). -/

namespace Sys2Proof.Machine

/-- `rst` is asserted now (R290). -/
def resetNow (s : State) : Bool := s.resets.head? == some 0

/-- One step passes on the count to the next assertion of `rst`. -/
def countDown : List Nat → List Nat
  | (n + 1) :: r => n :: r
  | r => r

/-- The assertion of `rst` that is served now is gone. -/
def resetServed (s : State) : State := { s with resets := s.resets.tail }

/-- One step nearer to the next reset. -/
def tick (s : State) : State := { s with resets := countDown s.resets }

/-- The next item, and the state without it: of the bench port if that holds one (log entry 6), else of the channel that
`PHASE` enables (R28): an offered operation in `Idle`, a received byte in `Rx`. -/
def fetch (s : State) : Option (Item × State) :=
  match s.bench with
  | item :: more => some (item, { s with bench := more })
  | [] =>
    match s.phase with
    | .idle =>
      match s.offers with
      | [] => none
      | c :: more => some (.command c, { s with offers := more })
    | .tx => none
    | .rx =>
      match s.rx with
      | .byte b :: more => some (.received b, { s with rx := more })
      | .fail :: _ => none
      | [] => none
    | .res => none

/-- The step that no item selects (R199): transmit or transmit failure in `Tx`, receive failure in `Rx`, the result step in
`Res`; where no other agent enables one the engine waits and nothing changes. -/
def ownStep (s : State) : Host.Outcome State Fault Refusal :=
  match s.phase with
  | .idle => .next s
  | .tx => transmit s
  | .rx =>
    match s.rx with
    | .fail :: more => .next (receiveFail { s with rx := more })
    | .byte _ :: _ => .next s
    | [] => .next s
  | .res =>
    match s.takes with
    | 0 => .next s
    | n + 1 => .next (giveResult { s with takes := n })

/-- The item that `withFetchWord` places: the one that `decodeTableWord` reads. -/
def wordItem (nbits w : Nat) : Item := tableItem nbits w

/-- `REQ_OP` under which a placed item runs: for a response image (sender byte 0xFF) the operation that expects it, for every
other item, a request image among them, as it is. R94 and R197 say that the operation in progress chooses a response's
format; that placing one sets `REQ_OP`, and placing a request does not, is the model's choice (DESIGN CHOICE, log
entry 15). -/
def wordExpect (item : Item) (s : State) : Op :=
  match item with
  | .image f => if byteAt f 2 = DEV_ID then tableExpect item else s.reqOp
  | _ => s.reqOp

end Sys2Proof.Machine
end

