-- ==== Sys2Proof/Machine/Step.lean ====
section
/-! DEFINITION. The step: reset before everything, else the instruction that the next item decodes to, else the step that no
item selects (44_command_codec.md R199). -/

namespace Sys2Proof.Machine

/-- A step without reset. -/
def engineStep (s : State) : Host.Outcome State Fault Refusal :=
  match fetch s with
  | some (item, s') =>
    match decode s'.reqOp item with
    | .ok i => exec i s'
    | .error e => .refused (.undecodable e)
  | none => ownStep s

/-- One step of the machine (R13, R199, R290). -/
def step (s : State) : Host.Outcome State Fault Refusal :=
  if resetNow s then .next (resetEngine (resetServed s)) else engineStep (tick s)

/-- The state with an item of the opcode table as the next one that `step` runs: alone on the bench port, no reset due, and
for a response image `REQ_OP` the operation that expects it; for every other item, a request image among them, `REQ_OP` stays
(DESIGN CHOICE, log entry 15). -/
def State.withFetchWord (s : State) (nbits w : Nat) : State :=
  { s with bench := [wordItem nbits w], resets := [], reqOp := wordExpect (wordItem nbits w) s }

end Sys2Proof.Machine
end

