-- ==== Sys2Proof/Machine/Streaming.lean ====
section
/-! DEFINITION. The hardware forms that the spec describes beside its functions: the streaming escaper (40_escaper.md R110) and
the framer that builds a frame while sending it (42_framer_tx.md R138). Neither is architectural: the machine runs on
`TXQ`, and statements say that these give the same bytes. -/

namespace Sys2Proof.Machine

/-- One output byte of the streaming escaper, from its one bit of state (the second byte of a pair still to be emitted) and
the bytes still to come in (R110). -/
def escaperEmit : Option Byte → Bytes → Option (Byte × Option Byte × Bytes)
  | some b, s => some (b, none, s)
  | none, [] => none
  | none, b :: s => if reserved b then some (ESC, some b, s) else some (b, none, s)

/-- The first `n` output bytes of the streaming escaper (R110). -/
def escaperRun : Nat → Option Byte → Bytes → Bytes
  | 0, _, _ => []
  | n + 1, pending, s =>
    match escaperEmit pending s with
    | none => []
    | some (b, pending', s') => b :: escaperRun n pending' s'

/-- The body sent byte by byte: each byte added to the accumulator and sent through the escaper; the accumulator and
the bytes sent (R138). -/
def streamBody (ck : Byte) : Bytes → Byte × Bytes
  | [] => (ck, [])
  | b :: s => ((streamBody (ckAdd ck b) s).1, quote1 b ++ (streamBody (ckAdd ck b) s).2)

/-- A request frame built while it is sent: the head, the body with a cleared accumulator, the accumulator through the
escaper, the tail (R138). -/
def streamFrame (command : Byte) (payload : Bytes) : Bytes :=
  let sent := streamBody 0 (body HOST_ID command payload)
  HEAD ++ sent.2 ++ quote1 sent.1 ++ [TAIL]

end Sys2Proof.Machine
end

