-- ==== Sys2Proof/Safety.lean ====
section
/-! DEFINITION. The words the claims are stated in: a quiet environment, the invariants of the machine, and the whole
operations as the spec's own pseudocode gives them. -/

namespace Sys2Proof

open Machine

/-- No reset is due and the bench port is not used: the machine of 44_command_codec.md R199. -/
def Quiet (s : State) : Prop := s.resets = [] ∧ s.bench = []

/-- Instructions one after another, each from the state the one before left. -/
def execAll : List Instr → State → Host.Outcome State Fault Refusal
  | [], s => .next s
  | i :: is, s =>
    match exec i s with
    | .next s' => execAll is s'
    | .fault e => .fault e
    | .refused e => .refused e

/-- What the result latch holds while it is valid (R30, R250): a value only for an `OK` READ, data only for an `OK` VERSION
or CONNECT, and a status code that is produced. -/
def LatchShape (s : State) : Prop :=
  s.resStatus.toNat ≤ 11 ∧
  (s.resStatus ≠ 0 → s.resValue = none ∧ s.resData = none) ∧
  (s.resStatus = 0 →
    (s.resValue.isSome ↔ s.reqOp = .read) ∧ (s.resData.isSome ↔ s.reqOp = .version ∨ s.reqOp = .connect))

/-- The invariant of the engine: `TXQ` is a non-empty rest of the request frame in `Tx` and empty elsewhere (R25, R136, R138),
`RXBUF` is empty before a reception (R137, R198), the result latch is as R30 says while it is valid, `VERCACHE` is the
identifier exactly while connected (R32, R234), and no READ or WRITE is under way unconnected (R180). -/
structure Good (s : State) : Prop where
  txRest : s.phase = .tx →
    s.txq ≠ [] ∧ s.txq <:+ requestFrame s.reqOp s.reqNs s.reqAddr s.reqVal
  txEmpty : s.phase ≠ .tx → s.txq = []
  bufferEmpty : s.phase = .idle ∨ s.phase = .tx → s.rxbuf = []
  latch : s.phase = .res → LatchShape s
  cache : s.verCache = if s.connected then Config.fwId else []
  gate : s.phase = .tx ∨ s.phase = .rx → s.reqOp = .read ∨ s.reqOp = .write → s.connected = true

/-- Between operations and while a request goes out the deframer is in its default state (R27, R137, R198), if the bench port
has not been used (UNQUOTE run by itself writes `RXST`). -/
def Rested (s : State) : Prop :=
  s.bench = [] ∧ (s.phase = .idle ∨ s.phase = .tx → s.rxst = .accumulating)

/-- What an operation reports for the completed buffer `f`: status, value, data. The pseudocode of R186, R187, R210 and R231
after the reception, `v` being the value sent. -/
def report (op : Op) (ns : Namespace) (addr : Byte) (v : ConfigValue) (f : Bytes) :
    Status × Option ConfigValue × Option Bytes :=
  match checkFrame f with
  | .error e => (e, none, none)
  | .ok c p =>
    match op with
    | .version => (.ok, none, some p)
    | .connect => if p = Config.fwId then (.ok, none, some p) else (.incompatibilityError, none, none)
    | .read =>
      if c ≠ CMD_READ then (.protocolMismatchError, none, none)
      else if p.length ≠ 2 then (.lengthError, none, none)
      else (.ok, some (joinValue (byteAt p 0) (byteAt p 1)), none)
    | .write =>
      if c ≠ CMD_WRITE then (.protocolMismatchError, none, none)
      else if p.length ≠ 4 then (.lengthError, none, none)
      else if byteAt p 0 ≠ nsByte ns ∨ byteAt p 1 ≠ addr then (.addressMismatchError, none, none)
      else if joinValue (byteAt p 2) (byteAt p 3) ≠ v then (.writeVerificationError, none, none)
      else (.ok, none, none)

/-- The result that the host takes for such a report. -/
def reported (r : Status × Option ConfigValue × Option Bytes) : Result := ⟨statusCode r.1, r.2.1, r.2.2⟩

end Sys2Proof
end

