-- ==== Sys2Proof/Certificates/Slice0/Obligations.lean ====
section
/-! DEFINITION. The statements for the provers, from the numbered rules of spec/. `CK` and the count of free values
are left open by an existential wherever the spec leaves `CK` unspecified (log entry 3); the latches likewise
(log entry 2). A rule that spec/ marks as derived is the spec's own inference: what cites one has basis 'derived'. -/

open Sys2Proof Sys2Proof.Machine Host

/-! ### Encodings -/

/-- Decoding what the encoder writes gives the instruction back, for every instruction that obeys its row, under every
operation that expects it (R71, R75 to R80, R85, R90, R94). -/
def Obligations.DecodeEncodeRoundTrip : Prop :=
  ∀ (i : Instr) (op : Op), i.wellFormed = true → i.readUnder op = true → decode op (encode i) = .ok i

/-- What decodes obeys its row, is expected, and is encoded by the item it was read from: each item has one meaning. -/
def Obligations.DecodedItemIsTheEncoding : Prop :=
  ∀ (op : Op) (it : Item) (i : Instr), decode op it = .ok i →
    i.wellFormed = true ∧ i.readUnder op = true ∧ encode i = it

/-- Words written out from the tables of 30_encoding.md decode to what they stand for. -/
def Obligations.SpecWordsDecode : Prop :=
  decodeTableWord 8 0 = some (.connect .setup1 0 0) ∧
  decodeTableWord 8 2 = some (.read .setup1 0 0) ∧
  decodeTableWord 16 0xC33C = some .esc3C ∧
  decodeTableWord 16 0xC355 = some .esc55 ∧
  decodeTableWord 48 0x55550001013C = some .reqV ∧
  decodeTableWord 64 0x55550003FF05073C = some (.reqR 0xFF 0x05 0x07) ∧
  decodeTableWord 64 0x5555FF032A002C3C = some (.rspR 0x2A 0x00 0x2C)

/-! ### Escaper -/

/-- R108: quoting and unquoting gives the sequence back, ends in `Accumulating`, and marks exactly the reserved bytes. -/
def Obligations.EscapingRoundTrips : Prop :=
  ∀ s : Bytes, unquote (quote s) = (.accumulating, s.map fun b => (b, reserved b))

/-- R104: the length of an escaped sequence. -/
def Obligations.QuoteLengthCountsReserved : Prop :=
  ∀ s : Bytes, (quote s).length = s.length + s.countP reserved ∧
    s.length ≤ (quote s).length ∧ (quote s).length ≤ 2 * s.length

/-- R107: QUOTE is one-to-one, UNQUOTE is not, and quoting what was unquoted gives back exactly the outputs of QUOTE. -/
def Obligations.QuoteOneToOneUnquoteNot : Prop :=
  (∀ s t : Bytes, quote s = quote t → s = t) ∧
  (unquote [0x41]).2.map Prod.fst = (unquote [0xC3, 0x41]).2.map Prod.fst ∧
  (∀ t : Bytes, quote ((unquote t).2.map Prod.fst) = t ↔ ∃ s, t = quote s)

/-- R103, with R152: in `quote(e)` no tail stands outside a pair, so the tail after it is the first that ends the frame, and
the buffer is then `e` and the tail. -/
def Obligations.QuotedRegionEndsAtItsTail : Prop :=
  ∀ (e buf rest : Bytes),
    collectUntil .accumulating buf (quote e ++ TAIL :: rest) = (.accumulating, buf ++ e ++ [TAIL], some rest)

/-- R102: three replacements with the escape marker first give `quote`; with it last they do not. -/
def Obligations.ReplacementInRightOrderIsQuote : Prop :=
  (∀ s : Bytes, quoteByReplacement s = quote s) ∧
  replaceByte ESC (replaceByte TAIL [0x3C]) = [0xC3, 0xC3, 0x3C]

/-- R110: the streaming escaper emits the bytes of `quote`, one at a time. -/
def Obligations.StreamingEscaperEmitsQuote : Prop :=
  ∀ (s : Bytes) (n : Nat), escaperRun n none s = (quote s).take n

/-! ### Checksum -/

/-- R124: CK_CLEAR and CK_ADD of the bytes in any order leave `cksum` in `CK` and touch nothing else; the checksum of a
concatenation; no dependence on the order. -/
def Obligations.AccumulatorComputesChecksum : Prop :=
  (∀ (bs cs : Bytes) (s : State), cs.Perm bs →
    execAll (.ckClear :: cs.map .ckAdd) s = .next { s with ck := cksum bs }) ∧
  (∀ bs cs : Bytes, (cksum (bs ++ cs)).toNat = ((cksum bs).toNat + (cksum cs).toNat) % 256) ∧
  (∀ bs cs : Bytes, cs.Perm bs → cksum cs = cksum bs)

/-- R125, R126: a frame whose checksum was good before exactly one body byte changed its value gives `ChecksumError`. -/
def Obligations.OneChangedBodyByteIsChecksumError : Prop :=
  ∀ (pre post : Bytes) (b d k : Byte), 2 ≤ (pre ++ b :: post).length → b ≠ d → k = cksum (pre ++ b :: post) →
    checkFrame (HEAD ++ (pre ++ d :: post) ++ [k, TAIL]) = .error .checksumError

/-! ### Frames -/

/-- R133: the length of every request. -/
def Obligations.RequestLengths : Prop :=
  (∀ (c : Byte) (p : Bytes),
    (encodeFrame c p).length = 6 + p.length + (c :: p ++ [cksum (body HOST_ID c p)]).countP reserved) ∧
  (∀ ns addr v, (requestFrame .connect ns addr v).length = 6 ∧ (requestFrame .version ns addr v).length = 6) ∧
  (∀ ns addr v, (requestFrame .read ns addr v).length = 8 ∨ (requestFrame .read ns addr v).length = 9) ∧
  (∀ ns addr v, 10 ≤ (requestFrame .write ns addr v).length ∧ (requestFrame .write ns addr v).length ≤ 13) ∧
  requestFrame .write .global 0x16 0x5555 =
    [0x55, 0x55, 0x00, 0x04, 0xFF, 0x16, 0xC3, 0x55, 0xC3, 0x55, 0xC3, 0xC3, 0x3C]

/-- R134: the deframer takes a frame's bytes to exactly their last one, holds the image then, and passes it with its command and
payload; with `HOST_ID` for the sender only the sender check fails. -/
def Obligations.FrameComesBackThroughDeframer : Prop :=
  ∀ (sender c : Byte) (p rest : Bytes),
    collectUntil .accumulating [] (frame sender c p ++ rest) = (.accumulating, image sender c p, some rest) ∧
    (∀ pre post, frame sender c p = pre ++ post → post ≠ [] → (collectUntil .accumulating [] pre).2.2 = none) ∧
    checkFrame (image DEV_ID c p) = .ok c p ∧
    checkFrame (image HOST_ID c p) = .error .senderError

/-- R164, for a completed buffer (one that ends with the tail): which buffers pass the checks. -/
def Obligations.CheckedBuffersAreImages : Prop :=
  ∀ (f : Bytes) (c : Byte) (p : Bytes), f.getLast? = some TAIL →
    (checkFrame f = .ok c p ↔ f = [0x55, 0x55, 0xFF, c] ++ p ++ [cksum ([0xFF, c] ++ p), 0x3C])

/-- R156: the buffer at completion ends with the first tail that was no escaped byte. -/
def Obligations.CompletedBufferEndsWithBareTail : Prop :=
  ∀ (bs : Bytes) (st : RxState) (buf rest : Bytes),
    collectUntil .accumulating [] bs = (st, buf, some rest) →
    st = .accumulating ∧ ∃ pre, bs = pre ++ TAIL :: rest ∧ (unquote pre).1 = .accumulating ∧
      buf = (unquote pre).2.map Prod.fst ++ [TAIL] ∧ (TAIL, false) ∉ (unquote pre).2

/-- R138: the frame built while sending it is `encode`. -/
def Obligations.FrameBuiltWhileSendingIsEncode : Prop :=
  ∀ (c : Byte) (p : Bytes), streamFrame c p = encodeFrame c p

/-- R81, R82, R90: a value is split and assembled little-endian and unsigned; the port code and the wire byte of each namespace;
the port code and the wire command of each operation. And the numbers of the status codes (R250). -/
def Obligations.OperandsOnTheWire : Prop :=
  (∀ v : ConfigValue, (valLo v).toNat = v.toNat % 256 ∧ (valHi v).toNat = v.toNat / 256 ∧
    joinValue (valLo v) (valHi v) = v) ∧
  (∀ b0 b1 : Byte, (joinValue b0 b1).toNat = b0.toNat + 256 * b1.toNat) ∧
  (∀ ns addr v, requestPayload .write ns addr v = [nsByte ns, addr, valLo v, valHi v]) ∧
  (∀ c : BitVec 2, nsCode (nsOfCode c) = c ∧ nsByte (nsOfCode c) = if c = 3 then 0xFF else c.zeroExtend 8) ∧
  (nsOfCode 0 = .setup1 ∧ nsOfCode 1 = .setup2 ∧ nsOfCode 2 = .setup3 ∧ nsOfCode 3 = .global) ∧
  (nsByte .setup1 = 0x00 ∧ nsByte .setup2 = 0x01 ∧ nsByte .setup3 = 0x02 ∧ nsByte .global = 0xFF) ∧
  (opOfCode 0 = .connect ∧ opOfCode 1 = .version ∧ opOfCode 2 = .read ∧ opOfCode 3 = .write) ∧
  (wireCommand .connect = 1 ∧ wireCommand .version = 1 ∧ wireCommand .read = 3 ∧ wireCommand .write = 4) ∧
  [Status.ok, .framingError, .checksumError, .senderError, .protocolMismatchError, .addressMismatchError,
    .writeVerificationError, .rangeError, .incompatibilityError, .transportError, .lengthError,
    .notConnected].map statusCode = [0, 1, 2, 3, 4, 5, 6, 7, 8, 9, 10, 11]

/-! ### The primitives run by themselves -/

/-- QUOTE, CKSUM and ENCODE run for every operand, answer the functions of R101, R120 and R130, and change nothing of the
engine (`unitOut` is the model's own, log entry 5). -/
def Obligations.PureFunctionsRun : Prop :=
  ∀ (s : State) (bs : Bytes) (c : Byte),
    exec (.quote bs) s = .next { s with
      unitOut := .bytes (bs.flatMap fun b => if b = 0xC3 ∨ b = 0x3C ∨ b = 0x55 then [0xC3, b] else [b]) } ∧
    exec (.cksum bs) s = .next { s with unitOut := .byte (BitVec.ofNat 8 ((bs.map BitVec.toNat).sum % 256)) } ∧
    exec (.encode c bs) s = .next { s with
      unitOut := .bytes ([0x55, 0x55] ++ quote ([0x00, c] ++ bs ++ [cksum ([0x00, c] ++ bs)]) ++ [0x3C]) }

/-- UNQUOTE of one byte runs in every state, writes `RXST` and answers the byte with its mark, as R105 says, and changes nothing
else (`unitOut` is the model's own, log entry 5; that UNQUOTE by itself runs in every phase and writes `RXST` there is the model's
choice, log entry 13). -/
def Obligations.UnquoteRuns : Prop :=
  ∀ (s : State) (b : Byte),
    (s.rxst = .accumulating → b = 0xC3 →
      exec (.unquote b) s = .next { s with rxst := .escaped, unitOut := .literal none }) ∧
    (s.rxst = .accumulating → b ≠ 0xC3 →
      exec (.unquote b) s = .next { s with unitOut := .literal (some (b, false)) }) ∧
    (s.rxst = .escaped →
      exec (.unquote b) s = .next { s with rxst := .accumulating, unitOut := .literal (some (b, true)) })

/-- CHECKFRAME reads `RXBUF` and changes nothing of the engine: the checks of R157 on a buffer with a good head, at least 6
bytes and a tail, and on any other (`unitOut` is the model's own, log entry 5; that CHECKFRAME by itself reads `RXBUF` in every
phase, an empty or uncompleted buffer too, is the model's choice, log entry 13). -/
def Obligations.CheckframeRuns : Prop :=
  (∀ (s : State) (sender c k t : Byte) (p : Bytes), s.rxbuf = [0x55, 0x55, sender, c] ++ p ++ [k, t] →
    exec .checkframe s = .next { s with
      unitOut := .checked
        (if k ≠ cksum ([sender, c] ++ p) then .error .checksumError
         else if sender ≠ 0xFF then .error .senderError else .ok c p) }) ∧
  (∀ s : State, s.rxbuf.length < 6 ∨ s.rxbuf.take 2 ≠ [0x55, 0x55] →
    exec .checkframe s = .next { s with unitOut := .checked (.error .framingError) })

/-- CK_CLEAR and CK_ADD run in every state and change `CK` alone (R122, R123). -/
def Obligations.AccumulatorOperationsRun : Prop :=
  ∀ (s : State) (b : Byte),
    exec .ckClear s = .next { s with ck := 0 } ∧
    exec (.ckAdd b) s = .next { s with ck := s.ck + b }

/-! ### The accept step -/

/-- The accept step of each operation in `Idle` (R192): what the request latch and `TXQ` hold then, and that nothing else
changes. -/
def Obligations.OperationsAccepted : Prop :=
  ∀ (s : State) (ns : Namespace) (addr : Byte) (value : Int), s.phase = .idle →
    (∃ ck n, exec (.connect ns addr value) s = .next { s with
      reqOp := .connect, reqNs := ns, reqAddr := addr, txq := [0x55, 0x55, 0x00, 0x01, 0x01, 0x3C],
      phase := .tx, ck := ck, free := n }) ∧
    (∃ ck n, exec (.version ns addr value) s = .next { s with
      reqOp := .version, reqNs := ns, reqAddr := addr, txq := [0x55, 0x55, 0x00, 0x01, 0x01, 0x3C],
      phase := .tx, ck := ck, free := n }) ∧
    (s.connected = true → ∃ ck n, exec (.read ns addr value) s = .next { s with
      reqOp := .read, reqNs := ns, reqAddr := addr, txq := encodeFrame 3 [nsByte ns, addr],
      phase := .tx, ck := ck, free := n }) ∧
    (s.connected = true → 0 ≤ value → value ≤ 65535 → ∃ ck n, exec (.write ns addr value) s = .next { s with
      reqOp := .write, reqNs := ns, reqAddr := addr, reqVal := BitVec.ofInt 16 value,
      txq := encodeFrame 4 [nsByte ns, addr, BitVec.ofInt 8 (value % 256), BitVec.ofInt 8 (value / 256)],
      phase := .tx, ck := ck, free := n })

/-- R180: READ and WRITE are refused while not connected, with nothing sent and nothing but `PHASE` and the result latch
changed; VERSION and CONNECT are not gated. -/
def Obligations.UnconnectedOperationsRefused : Prop :=
  ∀ (s : State) (ns : Namespace) (addr : Byte) (value : Int), s.phase = .idle → s.connected = false →
    exec (.read ns addr value) s =
      .next { s with phase := .res, resStatus := 11, resValue := none, resData := none } ∧
    exec (.write ns addr value) s =
      .next { s with phase := .res, resStatus := 11, resValue := none, resData := none } ∧
    (∃ t, exec (.version ns addr value) s = .next t ∧ t.phase = .tx) ∧
    (∃ t, exec (.connect ns addr value) s = .next t ∧ t.phase = .tx)

/-- R181: a WRITE out of range is refused with nothing sent and nothing but `PHASE` and the result latch changed; values at the
ends of the range pass; READ never raises `RangeError`. -/
def Obligations.WriteOutOfRangeRefused : Prop :=
  ∀ (s : State) (ns : Namespace) (addr : Byte) (value : Int), s.phase = .idle → s.connected = true →
    (value < 0 ∨ 65535 < value → exec (.write ns addr value) s =
      .next { s with phase := .res, resStatus := 7, resValue := none, resData := none }) ∧
    (0 ≤ value → value ≤ 65535 → ∃ t, exec (.write ns addr value) s = .next t ∧ t.phase = .tx) ∧
    (∃ t, exec (.read ns addr value) s = .next t ∧ t.phase = .tx)

/-- R43: an operation offered outside `Idle` is not accepted; it stays offered and nothing else changes (log entry 7). -/
def Obligations.OfferOutsideIdleWaits : Prop :=
  ∀ (s : State) (ns : Namespace) (addr : Byte) (value : Int), s.phase ≠ .idle →
    exec (.connect ns addr value) s = .next { s with offers := s.offers ++ [⟨0, nsCode ns, addr, value⟩] } ∧
    exec (.version ns addr value) s = .next { s with offers := s.offers ++ [⟨1, nsCode ns, addr, value⟩] } ∧
    exec (.read ns addr value) s = .next { s with offers := s.offers ++ [⟨2, nsCode ns, addr, value⟩] } ∧
    exec (.write ns addr value) s = .next { s with offers := s.offers ++ [⟨3, nsCode ns, addr, value⟩] }

/-- R84: READ ignores `value`; CONNECT and VERSION ignore all three operands, which reach only the request latch. -/
def Obligations.UnusedOperandsIgnored : Prop :=
  ∀ (s : State) (ns ns' : Namespace) (addr addr' : Byte) (value value' : Int), s.phase = .idle →
    exec (.read ns addr value) s = exec (.read ns addr value') s ∧
    (∃ t, exec (.connect ns addr value) s = .next t ∧
      exec (.connect ns' addr' value') s = .next { t with reqNs := ns', reqAddr := addr' }) ∧
    (∃ t, exec (.version ns addr value) s = .next t ∧
      exec (.version ns' addr' value') s = .next { t with reqNs := ns', reqAddr := addr' })

/-! ### Transmitting -/

/-- R136, R137: one byte goes out per step, in order, and with the last one the engine turns around. -/
def Obligations.TransmitStepAndTurnAround : Prop :=
  ∀ (s : State) (b : Byte) (rest : Bytes) (more : List TxAnswer),
    Quiet s → s.phase = .tx → s.txq = b :: rest → s.txAnswers = .ok :: more →
    (rest ≠ [] → ∃ ck n, step s = .next { s with
      txAnswers := more, sent := s.sent ++ [b], txq := rest, ck := ck, free := n }) ∧
    (rest = [] → ∃ ck n, step s = .next { s with
      txAnswers := more, sent := s.sent ++ [b], txq := [], phase := .rx, rxst := .accumulating, rxbuf := [],
      ck := ck, free := n })

/-- R194: the transmit-failure step. -/
def Obligations.TransmitFailureEndsOperation : Prop :=
  ∀ (s : State) (more : List TxAnswer), Quiet s → s.phase = .tx → s.txq ≠ [] → s.txAnswers = .fail :: more →
    ∃ ck n, step s = .next { s with
      txAnswers := more, phase := .res, txq := [], resStatus := 9, resValue := none, resData := none,
      connected := if s.reqOp = .connect then false else s.connected,
      verCache := if s.reqOp = .connect then [] else s.verCache,
      ck := ck, free := n }

/-- The request frames go out whole where they are what the engine is sending and the transport accepts every byte
(R75 to R77, R136, R137); in any other state they change nothing, since the engine sends no other frame (R139, log entry 9). -/
def Obligations.RequestFramesGoOut : Prop :=
  ∀ (s : State) (more : List TxAnswer) (i : Instr) (wire : Bytes),
    (i = .reqV ∧ wire = [0x55, 0x55, 0x00, 0x01, 0x01, 0x3C] ∨
      (∃ n a k, i = .reqR n a k ∧ wire = [0x55, 0x55] ++ quote [0x00, 0x03, n, a, k] ++ [0x3C]) ∨
      (∃ n a l h k, i = .reqW n a l h k ∧ wire = [0x55, 0x55] ++ quote [0x00, 0x04, n, a, l, h, k] ++ [0x3C])) →
    (s.phase = .tx → s.txq = wire → s.txAnswers = List.replicate wire.length .ok ++ more →
      ∃ ck n, exec i s = .next { s with
        sent := s.sent ++ wire, txq := [], txAnswers := more, phase := .rx, rxst := .accumulating, rxbuf := [],
        ck := ck, free := n }) ∧
    (¬ (s.phase = .tx ∧ s.txq = wire) → exec i s = .next s)

/-! ### Receiving -/

/-- RXBYTE in `Rx` (R152): the three cases that do not complete a frame. -/
def Obligations.RxbyteCollects : Prop :=
  ∀ (s : State) (b : Byte), s.phase = .rx →
    (s.rxst = .escaped → ∃ ck n, exec (.rxbyte b) s = .next { s with
      rxst := .accumulating, rxbuf := s.rxbuf ++ [b], ck := ck, free := n }) ∧
    (s.rxst = .accumulating → b = 0xC3 → ∃ ck n, exec (.rxbyte b) s = .next { s with
      rxst := .escaped, ck := ck, free := n }) ∧
    (s.rxst = .accumulating → b ≠ 0xC3 → b ≠ 0x3C → ∃ ck n, exec (.rxbyte b) s = .next { s with
      rxbuf := s.rxbuf ++ [b], ck := ck, free := n })

/-- The unescaped tail completes the frame, and the step ends with the report of the operation in progress, chosen by `REQ_OP`
(R152, R157, R197, R233, R234). -/
def Obligations.TailEvaluatesFrame : Prop :=
  ∀ (s : State), s.phase = .rx → s.rxst = .accumulating →
    ∃ ck n, exec (.rxbyte 0x3C) s = .next { s with
      rxbuf := s.rxbuf ++ [0x3C], phase := .res,
      resStatus := statusCode (report s.reqOp s.reqNs s.reqAddr s.reqVal (s.rxbuf ++ [0x3C])).1,
      resValue := (report s.reqOp s.reqNs s.reqAddr s.reqVal (s.rxbuf ++ [0x3C])).2.1,
      resData := (report s.reqOp s.reqNs s.reqAddr s.reqVal (s.rxbuf ++ [0x3C])).2.2,
      connected := if s.reqOp = .connect
        then ((report .connect s.reqNs s.reqAddr s.reqVal (s.rxbuf ++ [0x3C])).1 == .ok) else s.connected,
      verCache := if s.reqOp = .connect
        then (report .connect s.reqNs s.reqAddr s.reqVal (s.rxbuf ++ [0x3C])).2.2.getD [] else s.verCache,
      ck := ck, free := n }

/-- R42, R303: outside `Rx` a byte, an escape pair or a response frame stays in the transport, behind what it holds already,
and nothing else changes (log entry 8). -/
def Obligations.ArrivalsOutsideRxStay : Prop :=
  ∀ (s : State) (b c n a l h k : Byte) (p : Bytes), s.phase ≠ .rx →
    exec (.rxbyte b) s = .next { s with rx := s.rx ++ [.byte b] } ∧
    exec .escC3 s = .next { s with rx := s.rx ++ [.byte 0xC3, .byte 0xC3] } ∧
    exec .esc3C s = .next { s with rx := s.rx ++ [.byte 0xC3, .byte 0x3C] } ∧
    exec .esc55 s = .next { s with rx := s.rx ++ [.byte 0xC3, .byte 0x55] } ∧
    exec (.rspV c p k) s = .next { s with
      rx := s.rx ++ ([0x55, 0x55] ++ quote ([0xFF, c] ++ p ++ [k]) ++ [0x3C]).map .byte } ∧
    exec (.rspR l h k) s = .next { s with
      rx := s.rx ++ ([0x55, 0x55] ++ quote [0xFF, 0x03, l, h, k] ++ [0x3C]).map .byte } ∧
    exec (.rspW n a l h k) s = .next { s with
      rx := s.rx ++ ([0x55, 0x55] ++ quote [0xFF, 0x04, n, a, l, h, k] ++ [0x3C]).map .byte }

/-- R85: with nothing else in the transport, an escape pair received in `Accumulating` appends the byte it stands for and
completes nothing, the tail's pair included; received in `Escaped` its marker is data and its second byte stands by itself. That the pair is two bytes of
the transport is log entry 8. -/
def Obligations.EscapePairsReceived : Prop :=
  ∀ (s : State), s.phase = .rx → s.rx = [] →
    (s.rxst = .accumulating →
      (∃ ck n, exec .escC3 s = .next { s with rxbuf := s.rxbuf ++ [0xC3], ck := ck, free := n }) ∧
      (∃ ck n, exec .esc3C s = .next { s with rxbuf := s.rxbuf ++ [0x3C], ck := ck, free := n }) ∧
      (∃ ck n, exec .esc55 s = .next { s with rxbuf := s.rxbuf ++ [0x55], ck := ck, free := n })) ∧
    (s.rxst = .escaped →
      (∃ ck n, exec .escC3 s = .next { s with
        rxst := .escaped, rxbuf := s.rxbuf ++ [0xC3], ck := ck, free := n }) ∧
      (∃ t, exec .esc3C s = .next t ∧ t.phase = .res ∧ t.rxbuf = s.rxbuf ++ [0xC3, 0x3C] ∧ t.rx = [] ∧
        t.sent = s.sent) ∧
      (∃ ck n, exec .esc55 s = .next { s with
        rxst := .accumulating, rxbuf := s.rxbuf ++ [0xC3, 0x55], ck := ck, free := n }))

/-- R152, R157, R197: a response frame received afresh ends the reception with the report of its image, whatever operation is in
progress and whatever its checksum byte: the format is chosen by `REQ_OP`, never by the command byte received. That a
frame is the bytes of its wire form is log entry 8. -/
def Obligations.ResponseFramesReported : Prop :=
  ∀ (s : State) (i : Instr) (img : Bytes), s.phase = .rx → s.rxst = .accumulating → s.rxbuf = [] → s.rx = [] →
    ((∃ c p k, i = .rspV c p k ∧ img = [0x55, 0x55, 0xFF, c] ++ p ++ [k, 0x3C]) ∨
      (∃ l h k, i = .rspR l h k ∧ img = [0x55, 0x55, 0xFF, 0x03, l, h, k, 0x3C]) ∨
      (∃ n a l h k, i = .rspW n a l h k ∧ img = [0x55, 0x55, 0xFF, 0x04, n, a, l, h, k, 0x3C])) →
    ∃ ck m, exec i s = .next { s with
      rxbuf := img, phase := .res,
      resStatus := statusCode (report s.reqOp s.reqNs s.reqAddr s.reqVal img).1,
      resValue := (report s.reqOp s.reqNs s.reqAddr s.reqVal img).2.1,
      resData := (report s.reqOp s.reqNs s.reqAddr s.reqVal img).2.2,
      connected := if s.reqOp = .connect
        then ((report .connect s.reqNs s.reqAddr s.reqVal img).1 == .ok) else s.connected,
      verCache := if s.reqOp = .connect
        then (report .connect s.reqNs s.reqAddr s.reqVal img).2.2.getD [] else s.verCache,
      ck := ck, free := m }

/-- READ's response (R79, R186, R188 to R190): with READ in progress `RSP-R` ends the reception with its value, or with
`ChecksumError` if its checksum byte is not the checksum of its body; nothing else of the engine changes. That the row run by
itself is its wire bytes arriving, a whole reception in one step, is the model's choice (log entry 8). -/
def Obligations.ReadResponseGivesValue : Prop :=
  ∀ (s : State) (l h k : Byte), s.phase = .rx → s.rxst = .accumulating → s.rxbuf = [] → s.rx = [] →
    s.reqOp = .read →
    ∃ ck n, exec (.rspR l h k) s = .next { s with
      rxbuf := [0x55, 0x55, 0xFF, 0x03, l, h, k, 0x3C], phase := .res,
      resStatus := if k = 0x02 + l + h then 0 else 2,
      resValue := if k = 0x02 + l + h then some (BitVec.ofNat 16 (l.toNat + 256 * h.toNat)) else none,
      resData := none, ck := ck, free := n }

/-- The responses of VERSION and CONNECT (R78, R187, R231 to R234): `RSP-V` with any command byte and any payload. VERSION returns
the payload; CONNECT compares it with `FW_ID` and connects or disconnects. That the row run by itself is its wire bytes arriving,
a whole reception in one step, is the model's choice (log entry 8). -/
def Obligations.VersionResponseReturnsPayload : Prop :=
  ∀ (s : State) (c k : Byte) (p : Bytes), s.phase = .rx → s.rxst = .accumulating → s.rxbuf = [] → s.rx = [] →
    k = cksum ([0xFF, c] ++ p) →
    (s.reqOp = .version → ∃ ck n, exec (.rspV c p k) s = .next { s with
      rxbuf := [0x55, 0x55, 0xFF, c] ++ p ++ [k, 0x3C], phase := .res, resStatus := 0, resValue := none,
      resData := some p, ck := ck, free := n }) ∧
    (s.reqOp = .connect → p = Config.fwId → ∃ ck n, exec (.rspV c p k) s = .next { s with
      rxbuf := [0x55, 0x55, 0xFF, c] ++ p ++ [k, 0x3C], phase := .res, resStatus := 0, resValue := none,
      resData := some p, connected := true, verCache := p, ck := ck, free := n }) ∧
    (s.reqOp = .connect → p ≠ Config.fwId → ∃ ck n, exec (.rspV c p k) s = .next { s with
      rxbuf := [0x55, 0x55, 0xFF, c] ++ p ++ [k, 0x3C], phase := .res, resStatus := 8, resValue := none,
      resData := none, connected := false, verCache := [], ck := ck, free := n })

/-- WRITE's response (R80, R210 to R215): with WRITE in progress `RSP-W` ends the reception, the first failing check giving the
status; `CONNECTED` and `VERCACHE` stay. That the row run by itself is its wire bytes arriving, a whole reception in one step, is
the model's choice (log entry 8). -/
def Obligations.WriteResponseIsCompared : Prop :=
  ∀ (s : State) (n a l h k : Byte), s.phase = .rx → s.rxst = .accumulating → s.rxbuf = [] → s.rx = [] →
    s.reqOp = .write →
    ∃ ck m, exec (.rspW n a l h k) s = .next { s with
      rxbuf := [0x55, 0x55, 0xFF, 0x04, n, a, l, h, k, 0x3C], phase := .res,
      resStatus :=
        if k ≠ 0x03 + n + a + l + h then 2
        else if n ≠ nsByte s.reqNs ∨ a ≠ s.reqAddr then 5
        else if l ≠ valLo s.reqVal ∨ h ≠ valHi s.reqVal then 6 else 0,
      resValue := none, resData := none, ck := ck, free := m }

/-- R214: WRITE completes with `OK` if and only if the completed buffer is the one confirming image. -/
def Obligations.WriteConfirmedOnlyByItsEcho : Prop :=
  ∀ (ns : Namespace) (addr : Byte) (v : ConfigValue) (f : Bytes), f.getLast? = some TAIL →
    ((report .write ns addr v f).1 = .ok ↔
      f = [0x55, 0x55, 0xFF, 0x04, nsByte ns, addr, valLo v, valHi v,
        0xFF + 0x04 + nsByte ns + addr + valLo v + valHi v, 0x3C])

/-- The priority of the errors of a completed frame (R264, 4 to 11 and 8'), on buffers given by their parts. -/
def Obligations.FirstFailingCheckIsReported : Prop :=
  ∀ (op : Op) (ns : Namespace) (addr : Byte) (v : ConfigValue),
    (∀ f : Bytes, f.length < 6 ∨ f.take 2 ≠ [0x55, 0x55] → (report op ns addr v f).1 = .framingError) ∧
    (∀ (sender c k : Byte) (p : Bytes),
      (report op ns addr v ([0x55, 0x55, sender, c] ++ p ++ [k, 0x3C])).1 =
        if k ≠ cksum ([sender, c] ++ p) then .checksumError
        else if sender ≠ 0xFF then .senderError
        else match op with
          | .version => .ok
          | .connect => if p = Config.fwId then .ok else .incompatibilityError
          | .read =>
            if c ≠ 3 then .protocolMismatchError else if p.length ≠ 2 then .lengthError else .ok
          | .write =>
            if c ≠ 4 then .protocolMismatchError else if p.length ≠ 4 then .lengthError
            else if p.take 2 ≠ [nsByte ns, addr] then .addressMismatchError
            else if p.drop 2 ≠ [valLo v, valHi v] then .writeVerificationError else .ok)

/-- R196: the receive-failure step. -/
def Obligations.ReceiveFailureEndsOperation : Prop :=
  ∀ (s : State) (more : List RxItem), Quiet s → s.phase = .rx → s.rx = .fail :: more →
    ∃ ck n, step s = .next { s with
      rx := more, phase := .res, resStatus := 9, resValue := none, resData := none,
      connected := if s.reqOp = .connect then false else s.connected,
      verCache := if s.reqOp = .connect then [] else s.verCache,
      ck := ck, free := n }

/-- R155: with nothing to receive the engine stays in `Rx` for ever, a hang with `op_ready` down; it is no fault. -/
def Obligations.StuckReceptionHangs : Prop :=
  ∀ (s : State) (k : Nat), Quiet s → s.phase = .rx → s.rx = [] →
    (Core.run core k s : Outcome State Fault Refusal) = .next s ∧ (outputs s).opReady = false ∧
      (outputs s).rxReady = true

/-! ### The step -/

/-- A step runs the instruction that the next item decodes to: an item of the bench port, the offered operation in `Idle`, the
received byte in `Rx` (R28, R199; the bench port is the model's own, log entry 6). -/
def Obligations.StepRunsDecodedInstruction : Prop :=
  ∀ (s : State), resetNow s = false →
    (∀ it more i, s.bench = it :: more → decode s.reqOp it = .ok i →
      step s = exec i { s with bench := more, resets := countDown s.resets }) ∧
    (∀ c more i, s.bench = [] → s.phase = .idle → s.offers = c :: more → decode s.reqOp (.command c) = .ok i →
      step s = exec i { s with offers := more, resets := countDown s.resets }) ∧
    (∀ b more i, s.bench = [] → s.phase = .rx → s.rx = .byte b :: more → decode s.reqOp (.received b) = .ok i →
      step s = exec i { s with rx := more, resets := countDown s.resets })

/-- `withFetchWord` places a word of the table where the next step runs it, in every state. The bench port and what placing does
to `REQ_OP` are the model's own (log entries 6 and 15). -/
def Obligations.PlacedWordRunsNext : Prop :=
  ∀ (s : State) (nbits w : Nat) (i : Instr), decodeTableWord nbits w = some i →
    step (s.withFetchWord nbits w) =
      exec i { s with bench := [], resets := [], reqOp := wordExpect (tableItem nbits w) s }

/-- R199: where no other agent enables a step the engine waits and nothing changes. -/
def Obligations.EngineWaitsUnlessEnabled : Prop :=
  ∀ (s : State), Quiet s →
    (s.phase = .idle → s.offers = [] → step s = .next s) ∧
    (s.phase = .tx → s.txq ≠ [] → s.txAnswers = [] → step s = .next s) ∧
    (s.phase = .rx → s.rx = [] → step s = .next s) ∧
    (s.phase = .res → s.takes = 0 → step s = .next s)

/-- R198: the result step gives the host the latch and leaves the engine in its idle state; `CONNECTED` and `VERCACHE` stay, the
latches are unspecified afterwards. -/
def Obligations.ResultStepReturnsToIdle : Prop :=
  ∀ (s : State) (n : Nat), Quiet s → s.phase = .res → s.takes = n + 1 →
    ∃ op ns a v st rv rd ck m, step s = .next { s with
      takes := n, results := s.results ++ [⟨s.resStatus, s.resValue, s.resData⟩],
      phase := .idle, txq := [], rxbuf := [], rxst := .accumulating,
      reqOp := op, reqNs := ns, reqAddr := a, reqVal := v,
      resStatus := st, resValue := rv, resData := rd, ck := ck, free := m }

/-- R290, R291: an asserted `rst` overrides every other step in every phase; it leaves the values of R47, the latches and `CK`
unspecified, gives no result, and leaves transport and host as they are. At power-on the registers have the same values. -/
def Obligations.ResetOverridesEveryPhase : Prop :=
  (∀ (s : State) (more : List Nat), s.resets = 0 :: more →
    ∃ op ns a v st rv rd ck m, step s = .next { s with
      resets := more, phase := .idle, rxst := .accumulating, rxbuf := [], txq := [], connected := false,
      verCache := [], reqOp := op, reqNs := ns, reqAddr := a, reqVal := v,
      resStatus := st, resValue := rv, resData := rd, ck := ck, free := m }) ∧
  (State.reset.phase = .idle ∧ State.reset.rxst = .accumulating ∧ State.reset.rxbuf = [] ∧ State.reset.txq = [] ∧
    State.reset.connected = false ∧ State.reset.verCache = [])

/-- R41, R47: the outputs after reset, and what the engine drives in every state. -/
def Obligations.OutputsFollowPhase : Prop :=
  outputs State.reset = ⟨true, false, none, false, false, false, []⟩ ∧
  (∀ s : State, (outputs s).opReady = (s.phase == .idle) ∧ (outputs s).txValid = (s.phase == .tx) ∧
    (outputs s).rxReady = (s.phase == .rx) ∧ (outputs s).resValid = (s.phase == .res) ∧
    (outputs s).connected = s.connected ∧ (outputs s).verCache = s.verCache) ∧
  (∀ (s : State) (b : Byte) (rest : Bytes), s.phase = .tx → s.txq = b :: rest → (outputs s).txData = some b)

/-! ### Invariants and rules of the whole machine -/

/-- Reset satisfies both invariants. -/
def Obligations.ResetIsGood : Prop := Good State.reset ∧ Rested State.reset

/-- Every step keeps the invariant `Good`, whatever the host, the transport, `rst` and the bench port do. -/
def Obligations.StepKeepsGood : Prop :=
  ∀ s t : State, Good s → step s = .next t → Good t

/-- Every step keeps the deframer at rest outside a reception, if the bench port is not used (R27, R137, R198). -/
def Obligations.StepKeepsRested : Prop :=
  ∀ s t : State, Rested s → step s = .next t → Rested t

/-- From a state with the invariant the engine always has its step: no fault and no refusal (R199). -/
def Obligations.GoodStateAlwaysSteps : Prop :=
  ∀ s : State, Good s → s.bench = [] → ∃ t, step s = .next t

/-- R234 with R290: in every step that is no reset, `CONNECTED` and `VERCACHE` change only at the end of a CONNECT, and to a
connection with `FW_ID` or to none. -/
def Obligations.OnlyConnectChangesConnection : Prop :=
  ∀ s t : State, step s = .next t → resetNow s = false →
    (t.connected ≠ s.connected ∨ t.verCache ≠ s.verCache) →
    s.reqOp = .connect ∧ (s.phase = .tx ∨ s.phase = .rx) ∧ t.phase = .res ∧
      (t.connected = true ∧ t.resStatus = 0 ∧ t.verCache = Config.fwId ∨
        t.connected = false ∧ t.resStatus ≠ 0 ∧ t.verCache = [])

/-- R139, R61: a step only appends to what was sent, and only in `Tx`, what it takes from the front of `TXQ`. -/
def Obligations.SendsOnlyFromQueue : Prop :=
  ∀ s t : State, step s = .next t →
    t.sent = s.sent ∨
    (s.phase = .tx ∧ ∃ out, out <+: s.txq ∧ out ≠ [] ∧ t.sent = s.sent ++ out ∧
      (t.phase = .tx ∨ t.phase = .rx → s.txq = out ++ t.txq))

/-- R42: without the bench port a step takes at most one item from the transport, the oldest, and only in `Rx`. -/
def Obligations.TakesBytesOnlyInRx : Prop :=
  ∀ s t : State, s.bench = [] → step s = .next t →
    t.rx = s.rx ∨ (s.phase = .rx ∧ resetNow s = false ∧ ∃ x, s.rx = x :: t.rx)

/-- R217, R192: from the accept step to the evaluation the request latch is stable. -/
def Obligations.RequestLatchStable : Prop :=
  ∀ s t : State, step s = .next t → resetNow s = false → s.phase = .tx ∨ s.phase = .rx →
    t.reqOp = s.reqOp ∧ t.reqNs = s.reqNs ∧ t.reqAddr = s.reqAddr ∧ t.reqVal = s.reqVal

/-- R262, R190: a step that enters `Res` leaves a latch of the shape R30 gives, and an error of CONNECT no connection. -/
def Obligations.ErrorEntryLeavesNoValue : Prop :=
  ∀ s t : State, step s = .next t → s.phase ≠ .res → t.phase = .res → t.resStatus ≠ 0 →
    t.resValue = none ∧ t.resData = none ∧ t.results = s.results ∧
    (s.phase = .tx ∨ s.phase = .rx → s.reqOp = .connect → t.connected = false ∧ t.verCache = [])

/-- R28, R199: the order of the phases. Without reset and without the bench port each step stays in its phase or goes on as the
table of R199 says. -/
def Obligations.PhasesFollowTheTable : Prop :=
  ∀ s t : State, s.bench = [] → resetNow s = false → step s = .next t → t.phase ≠ s.phase →
    (s.phase = .idle ∧ (t.phase = .tx ∨ t.phase = .res)) ∨
    (s.phase = .tx ∧ (t.phase = .rx ∨ t.phase = .res)) ∨
    (s.phase = .rx ∧ t.phase = .res) ∨
    (s.phase = .res ∧ t.phase = .idle ∧ t.results.length = s.results.length + 1)

/-! ### Whole operations -/

/-- R186, R187, R210, R231: from `Idle`, an operation that passes the pre-send checks, over a transport that accepts its request
and delivers a stream whose first unescaped tail is its last byte, takes 2 steps more than the bytes that cross, hands over
exactly the request, takes exactly the stream, and gives the host exactly the report of the completed buffer. -/
def Obligations.OperationRunsAsItsPseudocode : Prop :=
  ∀ (s : State) (op : Op) (ns : Namespace) (addr : Byte) (value : Int) (more : List Command)
    (bs buf : Bytes) (st : RxState) (answers : List TxAnswer) (later : List RxItem) (n : Nat),
    Quiet s → s.phase = .idle → s.offers = ⟨opCode op, nsCode ns, addr, value⟩ :: more →
    (op = .read ∨ op = .write → s.connected = true) → (op = .write → 0 ≤ value ∧ value ≤ 65535) →
    s.txAnswers = List.replicate (requestFrame op ns addr (valueOf value)).length .ok ++ answers →
    collectUntil .accumulating [] bs = (st, buf, some []) → s.rx = bs.map .byte ++ later → s.takes = n + 1 →
    ∃ t, (Core.run core ((requestFrame op ns addr (valueOf value)).length + bs.length + 2) s :
        Outcome State Fault Refusal) = .next t ∧
      t.phase = .idle ∧ t.offers = more ∧ t.txAnswers = answers ∧ t.rx = later ∧ t.takes = n ∧
      t.sent = s.sent ++ requestFrame op ns addr (valueOf value) ∧
      t.results = s.results ++ [reported (report op ns addr (valueOf value) buf)] ∧
      t.txq = [] ∧ t.rxbuf = [] ∧ t.rxst = .accumulating ∧
      t.connected = (if op = .connect
        then ((report op ns addr (valueOf value) buf).1 == .ok) else s.connected) ∧
      t.verCache = (if op = .connect
        then (report op ns addr (valueOf value) buf).2.2.getD [] else s.verCache)

/-- R186 and R304: READ returns the value of the next read response the transport holds, whatever field it belongs to. -/
def Obligations.ReadReturnsNextReadResponse : Prop :=
  ∀ (s : State) (ns : Namespace) (addr : Byte) (value : Int) (more : List Command) (l h : Byte)
    (answers : List TxAnswer) (later : List RxItem) (n : Nat),
    Quiet s → s.phase = .idle → s.connected = true → s.offers = ⟨2, nsCode ns, addr, value⟩ :: more →
    s.txAnswers = List.replicate (encodeFrame 3 [nsByte ns, addr]).length .ok ++ answers →
    s.rx = (frame 0xFF 3 [l, h]).map .byte ++ later → s.takes = n + 1 →
    ∃ t, (Core.run core ((encodeFrame 3 [nsByte ns, addr]).length + (frame 0xFF 3 [l, h]).length + 2) s :
        Outcome State Fault Refusal) = .next t ∧
      t.phase = .idle ∧ t.sent = s.sent ++ encodeFrame 3 [nsByte ns, addr] ∧ t.rx = later ∧
      t.results = s.results ++ [⟨0, some (BitVec.ofNat 16 (l.toNat + 256 * h.toNat)), none⟩]

/-- R231 with R180 (the source's example S7): a CONNECT answered by any other identifier gives
`IncompatibilityError` and leaves READ and WRITE refused. -/
def Obligations.IncompatibleFirmwareDisconnects : Prop :=
  ∀ (s : State) (c : Byte) (p : Bytes) (more : List Command) (answers : List TxAnswer) (later : List RxItem) (n : Nat)
    (ns : Namespace) (addr : Byte) (value : Int),
    Quiet s → s.phase = .idle → s.offers = ⟨0, nsCode ns, addr, value⟩ :: more → p ≠ Config.fwId →
    s.txAnswers = List.replicate 6 .ok ++ answers → s.rx = (frame 0xFF c p).map .byte ++ later → s.takes = n + 1 →
    ∃ t, (Core.run core (6 + (frame 0xFF c p).length + 2) s : Outcome State Fault Refusal) = .next t ∧
      t.phase = .idle ∧ t.results = s.results ++ [⟨8, none, none⟩] ∧ t.connected = false ∧ t.verCache = [] ∧
      (∀ ns' addr' value', ∃ u, exec (.read ns' addr' value') t = .next u ∧
        u.phase = .res ∧ u.resStatus = 11 ∧ u.sent = t.sent) ∧
      (∀ ns' addr' value', ∃ u, exec (.write ns' addr' value') t = .next u ∧
        u.phase = .res ∧ u.resStatus = 11 ∧ u.sent = t.sent)
end

