-- ==== Sys2Proof/Laws/State.lean ====
section
/-! SUPPORT. For every update of the state one lemma per field, true by unfolding the update, so that no proof unfolds a
record update. -/

namespace Sys2Proof.Machine

/-! ### `scratchCk` -/

@[simp] theorem scratchCk_phase (s : State) : (scratchCk s).phase = s.phase := rfl
@[simp] theorem scratchCk_reqOp (s : State) : (scratchCk s).reqOp = s.reqOp := rfl
@[simp] theorem scratchCk_reqNs (s : State) : (scratchCk s).reqNs = s.reqNs := rfl
@[simp] theorem scratchCk_reqAddr (s : State) : (scratchCk s).reqAddr = s.reqAddr := rfl
@[simp] theorem scratchCk_reqVal (s : State) : (scratchCk s).reqVal = s.reqVal := rfl
@[simp] theorem scratchCk_txq (s : State) : (scratchCk s).txq = s.txq := rfl
@[simp] theorem scratchCk_ck (s : State) : (scratchCk s).ck = Config.freeCk s.free := rfl
@[simp] theorem scratchCk_rxst (s : State) : (scratchCk s).rxst = s.rxst := rfl
@[simp] theorem scratchCk_rxbuf (s : State) : (scratchCk s).rxbuf = s.rxbuf := rfl
@[simp] theorem scratchCk_resStatus (s : State) : (scratchCk s).resStatus = s.resStatus := rfl
@[simp] theorem scratchCk_resValue (s : State) : (scratchCk s).resValue = s.resValue := rfl
@[simp] theorem scratchCk_resData (s : State) : (scratchCk s).resData = s.resData := rfl
@[simp] theorem scratchCk_connected (s : State) : (scratchCk s).connected = s.connected := rfl
@[simp] theorem scratchCk_verCache (s : State) : (scratchCk s).verCache = s.verCache := rfl
@[simp] theorem scratchCk_offers (s : State) : (scratchCk s).offers = s.offers := rfl
@[simp] theorem scratchCk_txAnswers (s : State) : (scratchCk s).txAnswers = s.txAnswers := rfl
@[simp] theorem scratchCk_sent (s : State) : (scratchCk s).sent = s.sent := rfl
@[simp] theorem scratchCk_rx (s : State) : (scratchCk s).rx = s.rx := rfl
@[simp] theorem scratchCk_takes (s : State) : (scratchCk s).takes = s.takes := rfl
@[simp] theorem scratchCk_results (s : State) : (scratchCk s).results = s.results := rfl
@[simp] theorem scratchCk_resets (s : State) : (scratchCk s).resets = s.resets := rfl
@[simp] theorem scratchCk_bench (s : State) : (scratchCk s).bench = s.bench := rfl
@[simp] theorem scratchCk_unitOut (s : State) : (scratchCk s).unitOut = s.unitOut := rfl
@[simp] theorem scratchCk_free (s : State) : (scratchCk s).free = s.free + 1 := rfl

/-! ### `scratchLatches` -/

@[simp] theorem scratchLatches_phase (s : State) : (scratchLatches s).phase = s.phase := rfl
@[simp] theorem scratchLatches_reqOp (s : State) : (scratchLatches s).reqOp = Config.freeReqOp s.free := rfl
@[simp] theorem scratchLatches_reqNs (s : State) : (scratchLatches s).reqNs = Config.freeReqNs s.free := rfl
@[simp] theorem scratchLatches_reqAddr (s : State) : (scratchLatches s).reqAddr = Config.freeReqAddr s.free := rfl
@[simp] theorem scratchLatches_reqVal (s : State) : (scratchLatches s).reqVal = Config.freeReqVal s.free := rfl
@[simp] theorem scratchLatches_txq (s : State) : (scratchLatches s).txq = s.txq := rfl
@[simp] theorem scratchLatches_ck (s : State) : (scratchLatches s).ck = Config.freeCk s.free := rfl
@[simp] theorem scratchLatches_rxst (s : State) : (scratchLatches s).rxst = s.rxst := rfl
@[simp] theorem scratchLatches_rxbuf (s : State) : (scratchLatches s).rxbuf = s.rxbuf := rfl
@[simp] theorem scratchLatches_resStatus (s : State) : (scratchLatches s).resStatus = Config.freeResStatus s.free := rfl
@[simp] theorem scratchLatches_resValue (s : State) : (scratchLatches s).resValue = none := rfl
@[simp] theorem scratchLatches_resData (s : State) : (scratchLatches s).resData = none := rfl
@[simp] theorem scratchLatches_connected (s : State) : (scratchLatches s).connected = s.connected := rfl
@[simp] theorem scratchLatches_verCache (s : State) : (scratchLatches s).verCache = s.verCache := rfl
@[simp] theorem scratchLatches_offers (s : State) : (scratchLatches s).offers = s.offers := rfl
@[simp] theorem scratchLatches_txAnswers (s : State) : (scratchLatches s).txAnswers = s.txAnswers := rfl
@[simp] theorem scratchLatches_sent (s : State) : (scratchLatches s).sent = s.sent := rfl
@[simp] theorem scratchLatches_rx (s : State) : (scratchLatches s).rx = s.rx := rfl
@[simp] theorem scratchLatches_takes (s : State) : (scratchLatches s).takes = s.takes := rfl
@[simp] theorem scratchLatches_results (s : State) : (scratchLatches s).results = s.results := rfl
@[simp] theorem scratchLatches_resets (s : State) : (scratchLatches s).resets = s.resets := rfl
@[simp] theorem scratchLatches_bench (s : State) : (scratchLatches s).bench = s.bench := rfl
@[simp] theorem scratchLatches_unitOut (s : State) : (scratchLatches s).unitOut = s.unitOut := rfl
@[simp] theorem scratchLatches_free (s : State) : (scratchLatches s).free = s.free + 1 := rfl

/-! ### `raise` -/

@[simp] theorem raise_phase (op : Op) (e : Status) (s : State) : (raise op e s).phase = .res := rfl
@[simp] theorem raise_reqOp (op : Op) (e : Status) (s : State) : (raise op e s).reqOp = s.reqOp := rfl
@[simp] theorem raise_reqNs (op : Op) (e : Status) (s : State) : (raise op e s).reqNs = s.reqNs := rfl
@[simp] theorem raise_reqAddr (op : Op) (e : Status) (s : State) : (raise op e s).reqAddr = s.reqAddr := rfl
@[simp] theorem raise_reqVal (op : Op) (e : Status) (s : State) : (raise op e s).reqVal = s.reqVal := rfl
@[simp] theorem raise_txq (op : Op) (e : Status) (s : State) : (raise op e s).txq = s.txq := rfl
@[simp] theorem raise_ck (op : Op) (e : Status) (s : State) : (raise op e s).ck = s.ck := rfl
@[simp] theorem raise_rxst (op : Op) (e : Status) (s : State) : (raise op e s).rxst = s.rxst := rfl
@[simp] theorem raise_rxbuf (op : Op) (e : Status) (s : State) : (raise op e s).rxbuf = s.rxbuf := rfl
@[simp] theorem raise_resStatus (op : Op) (e : Status) (s : State) : (raise op e s).resStatus = statusCode e := rfl
@[simp] theorem raise_resValue (op : Op) (e : Status) (s : State) : (raise op e s).resValue = none := rfl
@[simp] theorem raise_resData (op : Op) (e : Status) (s : State) : (raise op e s).resData = none := rfl
@[simp] theorem raise_connected (op : Op) (e : Status) (s : State) : (raise op e s).connected = (if op = .connect then false else s.connected) := rfl
@[simp] theorem raise_verCache (op : Op) (e : Status) (s : State) : (raise op e s).verCache = (if op = .connect then [] else s.verCache) := rfl
@[simp] theorem raise_offers (op : Op) (e : Status) (s : State) : (raise op e s).offers = s.offers := rfl
@[simp] theorem raise_txAnswers (op : Op) (e : Status) (s : State) : (raise op e s).txAnswers = s.txAnswers := rfl
@[simp] theorem raise_sent (op : Op) (e : Status) (s : State) : (raise op e s).sent = s.sent := rfl
@[simp] theorem raise_rx (op : Op) (e : Status) (s : State) : (raise op e s).rx = s.rx := rfl
@[simp] theorem raise_takes (op : Op) (e : Status) (s : State) : (raise op e s).takes = s.takes := rfl
@[simp] theorem raise_results (op : Op) (e : Status) (s : State) : (raise op e s).results = s.results := rfl
@[simp] theorem raise_resets (op : Op) (e : Status) (s : State) : (raise op e s).resets = s.resets := rfl
@[simp] theorem raise_bench (op : Op) (e : Status) (s : State) : (raise op e s).bench = s.bench := rfl
@[simp] theorem raise_unitOut (op : Op) (e : Status) (s : State) : (raise op e s).unitOut = s.unitOut := rfl
@[simp] theorem raise_free (op : Op) (e : Status) (s : State) : (raise op e s).free = s.free := rfl

/-! ### `complete` -/

@[simp] theorem complete_phase (v : Option ConfigValue) (d : Option Bytes) (s : State) : (complete v d s).phase = .res := rfl
@[simp] theorem complete_reqOp (v : Option ConfigValue) (d : Option Bytes) (s : State) : (complete v d s).reqOp = s.reqOp := rfl
@[simp] theorem complete_reqNs (v : Option ConfigValue) (d : Option Bytes) (s : State) : (complete v d s).reqNs = s.reqNs := rfl
@[simp] theorem complete_reqAddr (v : Option ConfigValue) (d : Option Bytes) (s : State) : (complete v d s).reqAddr = s.reqAddr := rfl
@[simp] theorem complete_reqVal (v : Option ConfigValue) (d : Option Bytes) (s : State) : (complete v d s).reqVal = s.reqVal := rfl
@[simp] theorem complete_txq (v : Option ConfigValue) (d : Option Bytes) (s : State) : (complete v d s).txq = s.txq := rfl
@[simp] theorem complete_ck (v : Option ConfigValue) (d : Option Bytes) (s : State) : (complete v d s).ck = s.ck := rfl
@[simp] theorem complete_rxst (v : Option ConfigValue) (d : Option Bytes) (s : State) : (complete v d s).rxst = s.rxst := rfl
@[simp] theorem complete_rxbuf (v : Option ConfigValue) (d : Option Bytes) (s : State) : (complete v d s).rxbuf = s.rxbuf := rfl
@[simp] theorem complete_resStatus (v : Option ConfigValue) (d : Option Bytes) (s : State) : (complete v d s).resStatus = statusCode .ok := rfl
@[simp] theorem complete_resValue (v : Option ConfigValue) (d : Option Bytes) (s : State) : (complete v d s).resValue = v := rfl
@[simp] theorem complete_resData (v : Option ConfigValue) (d : Option Bytes) (s : State) : (complete v d s).resData = d := rfl
@[simp] theorem complete_connected (v : Option ConfigValue) (d : Option Bytes) (s : State) : (complete v d s).connected = s.connected := rfl
@[simp] theorem complete_verCache (v : Option ConfigValue) (d : Option Bytes) (s : State) : (complete v d s).verCache = s.verCache := rfl
@[simp] theorem complete_offers (v : Option ConfigValue) (d : Option Bytes) (s : State) : (complete v d s).offers = s.offers := rfl
@[simp] theorem complete_txAnswers (v : Option ConfigValue) (d : Option Bytes) (s : State) : (complete v d s).txAnswers = s.txAnswers := rfl
@[simp] theorem complete_sent (v : Option ConfigValue) (d : Option Bytes) (s : State) : (complete v d s).sent = s.sent := rfl
@[simp] theorem complete_rx (v : Option ConfigValue) (d : Option Bytes) (s : State) : (complete v d s).rx = s.rx := rfl
@[simp] theorem complete_takes (v : Option ConfigValue) (d : Option Bytes) (s : State) : (complete v d s).takes = s.takes := rfl
@[simp] theorem complete_results (v : Option ConfigValue) (d : Option Bytes) (s : State) : (complete v d s).results = s.results := rfl
@[simp] theorem complete_resets (v : Option ConfigValue) (d : Option Bytes) (s : State) : (complete v d s).resets = s.resets := rfl
@[simp] theorem complete_bench (v : Option ConfigValue) (d : Option Bytes) (s : State) : (complete v d s).bench = s.bench := rfl
@[simp] theorem complete_unitOut (v : Option ConfigValue) (d : Option Bytes) (s : State) : (complete v d s).unitOut = s.unitOut := rfl
@[simp] theorem complete_free (v : Option ConfigValue) (d : Option Bytes) (s : State) : (complete v d s).free = s.free := rfl

/-! ### `giveResult` -/

@[simp] theorem giveResult_phase (s : State) : (giveResult s).phase = .idle := rfl
@[simp] theorem giveResult_reqOp (s : State) : (giveResult s).reqOp = Config.freeReqOp s.free := rfl
@[simp] theorem giveResult_reqNs (s : State) : (giveResult s).reqNs = Config.freeReqNs s.free := rfl
@[simp] theorem giveResult_reqAddr (s : State) : (giveResult s).reqAddr = Config.freeReqAddr s.free := rfl
@[simp] theorem giveResult_reqVal (s : State) : (giveResult s).reqVal = Config.freeReqVal s.free := rfl
@[simp] theorem giveResult_txq (s : State) : (giveResult s).txq = [] := rfl
@[simp] theorem giveResult_ck (s : State) : (giveResult s).ck = Config.freeCk s.free := rfl
@[simp] theorem giveResult_rxst (s : State) : (giveResult s).rxst = .accumulating := rfl
@[simp] theorem giveResult_rxbuf (s : State) : (giveResult s).rxbuf = [] := rfl
@[simp] theorem giveResult_resStatus (s : State) : (giveResult s).resStatus = Config.freeResStatus s.free := rfl
@[simp] theorem giveResult_resValue (s : State) : (giveResult s).resValue = none := rfl
@[simp] theorem giveResult_resData (s : State) : (giveResult s).resData = none := rfl
@[simp] theorem giveResult_connected (s : State) : (giveResult s).connected = s.connected := rfl
@[simp] theorem giveResult_verCache (s : State) : (giveResult s).verCache = s.verCache := rfl
@[simp] theorem giveResult_offers (s : State) : (giveResult s).offers = s.offers := rfl
@[simp] theorem giveResult_txAnswers (s : State) : (giveResult s).txAnswers = s.txAnswers := rfl
@[simp] theorem giveResult_sent (s : State) : (giveResult s).sent = s.sent := rfl
@[simp] theorem giveResult_rx (s : State) : (giveResult s).rx = s.rx := rfl
@[simp] theorem giveResult_takes (s : State) : (giveResult s).takes = s.takes := rfl
@[simp] theorem giveResult_results (s : State) : (giveResult s).results = s.results ++ [resultOf s] := rfl
@[simp] theorem giveResult_resets (s : State) : (giveResult s).resets = s.resets := rfl
@[simp] theorem giveResult_bench (s : State) : (giveResult s).bench = s.bench := rfl
@[simp] theorem giveResult_unitOut (s : State) : (giveResult s).unitOut = s.unitOut := rfl
@[simp] theorem giveResult_free (s : State) : (giveResult s).free = s.free + 1 := rfl

/-! ### `resetEngine` -/

@[simp] theorem resetEngine_phase (s : State) : (resetEngine s).phase = .idle := rfl
@[simp] theorem resetEngine_reqOp (s : State) : (resetEngine s).reqOp = Config.freeReqOp s.free := rfl
@[simp] theorem resetEngine_reqNs (s : State) : (resetEngine s).reqNs = Config.freeReqNs s.free := rfl
@[simp] theorem resetEngine_reqAddr (s : State) : (resetEngine s).reqAddr = Config.freeReqAddr s.free := rfl
@[simp] theorem resetEngine_reqVal (s : State) : (resetEngine s).reqVal = Config.freeReqVal s.free := rfl
@[simp] theorem resetEngine_txq (s : State) : (resetEngine s).txq = [] := rfl
@[simp] theorem resetEngine_ck (s : State) : (resetEngine s).ck = Config.freeCk s.free := rfl
@[simp] theorem resetEngine_rxst (s : State) : (resetEngine s).rxst = .accumulating := rfl
@[simp] theorem resetEngine_rxbuf (s : State) : (resetEngine s).rxbuf = [] := rfl
@[simp] theorem resetEngine_resStatus (s : State) : (resetEngine s).resStatus = Config.freeResStatus s.free := rfl
@[simp] theorem resetEngine_resValue (s : State) : (resetEngine s).resValue = none := rfl
@[simp] theorem resetEngine_resData (s : State) : (resetEngine s).resData = none := rfl
@[simp] theorem resetEngine_connected (s : State) : (resetEngine s).connected = false := rfl
@[simp] theorem resetEngine_verCache (s : State) : (resetEngine s).verCache = [] := rfl
@[simp] theorem resetEngine_offers (s : State) : (resetEngine s).offers = s.offers := rfl
@[simp] theorem resetEngine_txAnswers (s : State) : (resetEngine s).txAnswers = s.txAnswers := rfl
@[simp] theorem resetEngine_sent (s : State) : (resetEngine s).sent = s.sent := rfl
@[simp] theorem resetEngine_rx (s : State) : (resetEngine s).rx = s.rx := rfl
@[simp] theorem resetEngine_takes (s : State) : (resetEngine s).takes = s.takes := rfl
@[simp] theorem resetEngine_results (s : State) : (resetEngine s).results = s.results := rfl
@[simp] theorem resetEngine_resets (s : State) : (resetEngine s).resets = s.resets := rfl
@[simp] theorem resetEngine_bench (s : State) : (resetEngine s).bench = s.bench := rfl
@[simp] theorem resetEngine_unitOut (s : State) : (resetEngine s).unitOut = s.unitOut := rfl
@[simp] theorem resetEngine_free (s : State) : (resetEngine s).free = s.free + 1 := rfl

/-! ### `transmitFail` -/

@[simp] theorem transmitFail_phase (s : State) : (transmitFail s).phase = .res := rfl
@[simp] theorem transmitFail_reqOp (s : State) : (transmitFail s).reqOp = s.reqOp := rfl
@[simp] theorem transmitFail_reqNs (s : State) : (transmitFail s).reqNs = s.reqNs := rfl
@[simp] theorem transmitFail_reqAddr (s : State) : (transmitFail s).reqAddr = s.reqAddr := rfl
@[simp] theorem transmitFail_reqVal (s : State) : (transmitFail s).reqVal = s.reqVal := rfl
@[simp] theorem transmitFail_txq (s : State) : (transmitFail s).txq = [] := rfl
@[simp] theorem transmitFail_ck (s : State) : (transmitFail s).ck = Config.freeCk s.free := rfl
@[simp] theorem transmitFail_rxst (s : State) : (transmitFail s).rxst = s.rxst := rfl
@[simp] theorem transmitFail_rxbuf (s : State) : (transmitFail s).rxbuf = s.rxbuf := rfl
@[simp] theorem transmitFail_resStatus (s : State) : (transmitFail s).resStatus = 9 := rfl
@[simp] theorem transmitFail_resValue (s : State) : (transmitFail s).resValue = none := rfl
@[simp] theorem transmitFail_resData (s : State) : (transmitFail s).resData = none := rfl
@[simp] theorem transmitFail_connected (s : State) : (transmitFail s).connected = (if s.reqOp = .connect then false else s.connected) := rfl
@[simp] theorem transmitFail_verCache (s : State) : (transmitFail s).verCache = (if s.reqOp = .connect then [] else s.verCache) := rfl
@[simp] theorem transmitFail_offers (s : State) : (transmitFail s).offers = s.offers := rfl
@[simp] theorem transmitFail_txAnswers (s : State) : (transmitFail s).txAnswers = s.txAnswers := rfl
@[simp] theorem transmitFail_sent (s : State) : (transmitFail s).sent = s.sent := rfl
@[simp] theorem transmitFail_rx (s : State) : (transmitFail s).rx = s.rx := rfl
@[simp] theorem transmitFail_takes (s : State) : (transmitFail s).takes = s.takes := rfl
@[simp] theorem transmitFail_results (s : State) : (transmitFail s).results = s.results := rfl
@[simp] theorem transmitFail_resets (s : State) : (transmitFail s).resets = s.resets := rfl
@[simp] theorem transmitFail_bench (s : State) : (transmitFail s).bench = s.bench := rfl
@[simp] theorem transmitFail_unitOut (s : State) : (transmitFail s).unitOut = s.unitOut := rfl
@[simp] theorem transmitFail_free (s : State) : (transmitFail s).free = s.free + 1 := rfl

/-! ### `receiveFail` -/

@[simp] theorem receiveFail_phase (s : State) : (receiveFail s).phase = .res := rfl
@[simp] theorem receiveFail_reqOp (s : State) : (receiveFail s).reqOp = s.reqOp := rfl
@[simp] theorem receiveFail_reqNs (s : State) : (receiveFail s).reqNs = s.reqNs := rfl
@[simp] theorem receiveFail_reqAddr (s : State) : (receiveFail s).reqAddr = s.reqAddr := rfl
@[simp] theorem receiveFail_reqVal (s : State) : (receiveFail s).reqVal = s.reqVal := rfl
@[simp] theorem receiveFail_txq (s : State) : (receiveFail s).txq = s.txq := rfl
@[simp] theorem receiveFail_ck (s : State) : (receiveFail s).ck = Config.freeCk s.free := rfl
@[simp] theorem receiveFail_rxst (s : State) : (receiveFail s).rxst = s.rxst := rfl
@[simp] theorem receiveFail_rxbuf (s : State) : (receiveFail s).rxbuf = s.rxbuf := rfl
@[simp] theorem receiveFail_resStatus (s : State) : (receiveFail s).resStatus = 9 := rfl
@[simp] theorem receiveFail_resValue (s : State) : (receiveFail s).resValue = none := rfl
@[simp] theorem receiveFail_resData (s : State) : (receiveFail s).resData = none := rfl
@[simp] theorem receiveFail_connected (s : State) : (receiveFail s).connected = (if s.reqOp = .connect then false else s.connected) := rfl
@[simp] theorem receiveFail_verCache (s : State) : (receiveFail s).verCache = (if s.reqOp = .connect then [] else s.verCache) := rfl
@[simp] theorem receiveFail_offers (s : State) : (receiveFail s).offers = s.offers := rfl
@[simp] theorem receiveFail_txAnswers (s : State) : (receiveFail s).txAnswers = s.txAnswers := rfl
@[simp] theorem receiveFail_sent (s : State) : (receiveFail s).sent = s.sent := rfl
@[simp] theorem receiveFail_rx (s : State) : (receiveFail s).rx = s.rx := rfl
@[simp] theorem receiveFail_takes (s : State) : (receiveFail s).takes = s.takes := rfl
@[simp] theorem receiveFail_results (s : State) : (receiveFail s).results = s.results := rfl
@[simp] theorem receiveFail_resets (s : State) : (receiveFail s).resets = s.resets := rfl
@[simp] theorem receiveFail_bench (s : State) : (receiveFail s).bench = s.bench := rfl
@[simp] theorem receiveFail_unitOut (s : State) : (receiveFail s).unitOut = s.unitOut := rfl
@[simp] theorem receiveFail_free (s : State) : (receiveFail s).free = s.free + 1 := rfl

/-! ### `arrive` -/

@[simp] theorem arrive_phase (bs : Bytes) (s : State) : (arrive bs s).phase = s.phase := rfl
@[simp] theorem arrive_reqOp (bs : Bytes) (s : State) : (arrive bs s).reqOp = s.reqOp := rfl
@[simp] theorem arrive_reqNs (bs : Bytes) (s : State) : (arrive bs s).reqNs = s.reqNs := rfl
@[simp] theorem arrive_reqAddr (bs : Bytes) (s : State) : (arrive bs s).reqAddr = s.reqAddr := rfl
@[simp] theorem arrive_reqVal (bs : Bytes) (s : State) : (arrive bs s).reqVal = s.reqVal := rfl
@[simp] theorem arrive_txq (bs : Bytes) (s : State) : (arrive bs s).txq = s.txq := rfl
@[simp] theorem arrive_ck (bs : Bytes) (s : State) : (arrive bs s).ck = s.ck := rfl
@[simp] theorem arrive_rxst (bs : Bytes) (s : State) : (arrive bs s).rxst = s.rxst := rfl
@[simp] theorem arrive_rxbuf (bs : Bytes) (s : State) : (arrive bs s).rxbuf = s.rxbuf := rfl
@[simp] theorem arrive_resStatus (bs : Bytes) (s : State) : (arrive bs s).resStatus = s.resStatus := rfl
@[simp] theorem arrive_resValue (bs : Bytes) (s : State) : (arrive bs s).resValue = s.resValue := rfl
@[simp] theorem arrive_resData (bs : Bytes) (s : State) : (arrive bs s).resData = s.resData := rfl
@[simp] theorem arrive_connected (bs : Bytes) (s : State) : (arrive bs s).connected = s.connected := rfl
@[simp] theorem arrive_verCache (bs : Bytes) (s : State) : (arrive bs s).verCache = s.verCache := rfl
@[simp] theorem arrive_offers (bs : Bytes) (s : State) : (arrive bs s).offers = s.offers := rfl
@[simp] theorem arrive_txAnswers (bs : Bytes) (s : State) : (arrive bs s).txAnswers = s.txAnswers := rfl
@[simp] theorem arrive_sent (bs : Bytes) (s : State) : (arrive bs s).sent = s.sent := rfl
@[simp] theorem arrive_rx (bs : Bytes) (s : State) : (arrive bs s).rx = s.rx ++ bs.map .byte := rfl
@[simp] theorem arrive_takes (bs : Bytes) (s : State) : (arrive bs s).takes = s.takes := rfl
@[simp] theorem arrive_results (bs : Bytes) (s : State) : (arrive bs s).results = s.results := rfl
@[simp] theorem arrive_resets (bs : Bytes) (s : State) : (arrive bs s).resets = s.resets := rfl
@[simp] theorem arrive_bench (bs : Bytes) (s : State) : (arrive bs s).bench = s.bench := rfl
@[simp] theorem arrive_unitOut (bs : Bytes) (s : State) : (arrive bs s).unitOut = s.unitOut := rfl
@[simp] theorem arrive_free (bs : Bytes) (s : State) : (arrive bs s).free = s.free := rfl

/-! ### `tick` -/

@[simp] theorem tick_phase (s : State) : (tick s).phase = s.phase := rfl
@[simp] theorem tick_reqOp (s : State) : (tick s).reqOp = s.reqOp := rfl
@[simp] theorem tick_reqNs (s : State) : (tick s).reqNs = s.reqNs := rfl
@[simp] theorem tick_reqAddr (s : State) : (tick s).reqAddr = s.reqAddr := rfl
@[simp] theorem tick_reqVal (s : State) : (tick s).reqVal = s.reqVal := rfl
@[simp] theorem tick_txq (s : State) : (tick s).txq = s.txq := rfl
@[simp] theorem tick_ck (s : State) : (tick s).ck = s.ck := rfl
@[simp] theorem tick_rxst (s : State) : (tick s).rxst = s.rxst := rfl
@[simp] theorem tick_rxbuf (s : State) : (tick s).rxbuf = s.rxbuf := rfl
@[simp] theorem tick_resStatus (s : State) : (tick s).resStatus = s.resStatus := rfl
@[simp] theorem tick_resValue (s : State) : (tick s).resValue = s.resValue := rfl
@[simp] theorem tick_resData (s : State) : (tick s).resData = s.resData := rfl
@[simp] theorem tick_connected (s : State) : (tick s).connected = s.connected := rfl
@[simp] theorem tick_verCache (s : State) : (tick s).verCache = s.verCache := rfl
@[simp] theorem tick_offers (s : State) : (tick s).offers = s.offers := rfl
@[simp] theorem tick_txAnswers (s : State) : (tick s).txAnswers = s.txAnswers := rfl
@[simp] theorem tick_sent (s : State) : (tick s).sent = s.sent := rfl
@[simp] theorem tick_rx (s : State) : (tick s).rx = s.rx := rfl
@[simp] theorem tick_takes (s : State) : (tick s).takes = s.takes := rfl
@[simp] theorem tick_results (s : State) : (tick s).results = s.results := rfl
@[simp] theorem tick_resets (s : State) : (tick s).resets = countDown s.resets := rfl
@[simp] theorem tick_bench (s : State) : (tick s).bench = s.bench := rfl
@[simp] theorem tick_unitOut (s : State) : (tick s).unitOut = s.unitOut := rfl
@[simp] theorem tick_free (s : State) : (tick s).free = s.free := rfl

/-! ### `resetServed` -/

@[simp] theorem resetServed_phase (s : State) : (resetServed s).phase = s.phase := rfl
@[simp] theorem resetServed_reqOp (s : State) : (resetServed s).reqOp = s.reqOp := rfl
@[simp] theorem resetServed_reqNs (s : State) : (resetServed s).reqNs = s.reqNs := rfl
@[simp] theorem resetServed_reqAddr (s : State) : (resetServed s).reqAddr = s.reqAddr := rfl
@[simp] theorem resetServed_reqVal (s : State) : (resetServed s).reqVal = s.reqVal := rfl
@[simp] theorem resetServed_txq (s : State) : (resetServed s).txq = s.txq := rfl
@[simp] theorem resetServed_ck (s : State) : (resetServed s).ck = s.ck := rfl
@[simp] theorem resetServed_rxst (s : State) : (resetServed s).rxst = s.rxst := rfl
@[simp] theorem resetServed_rxbuf (s : State) : (resetServed s).rxbuf = s.rxbuf := rfl
@[simp] theorem resetServed_resStatus (s : State) : (resetServed s).resStatus = s.resStatus := rfl
@[simp] theorem resetServed_resValue (s : State) : (resetServed s).resValue = s.resValue := rfl
@[simp] theorem resetServed_resData (s : State) : (resetServed s).resData = s.resData := rfl
@[simp] theorem resetServed_connected (s : State) : (resetServed s).connected = s.connected := rfl
@[simp] theorem resetServed_verCache (s : State) : (resetServed s).verCache = s.verCache := rfl
@[simp] theorem resetServed_offers (s : State) : (resetServed s).offers = s.offers := rfl
@[simp] theorem resetServed_txAnswers (s : State) : (resetServed s).txAnswers = s.txAnswers := rfl
@[simp] theorem resetServed_sent (s : State) : (resetServed s).sent = s.sent := rfl
@[simp] theorem resetServed_rx (s : State) : (resetServed s).rx = s.rx := rfl
@[simp] theorem resetServed_takes (s : State) : (resetServed s).takes = s.takes := rfl
@[simp] theorem resetServed_results (s : State) : (resetServed s).results = s.results := rfl
@[simp] theorem resetServed_resets (s : State) : (resetServed s).resets = s.resets.tail := rfl
@[simp] theorem resetServed_bench (s : State) : (resetServed s).bench = s.bench := rfl
@[simp] theorem resetServed_unitOut (s : State) : (resetServed s).unitOut = s.unitOut := rfl
@[simp] theorem resetServed_free (s : State) : (resetServed s).free = s.free := rfl

/-! ### `latch` -/

@[simp] theorem latch_phase (op : Op) (ns : Namespace) (addr : Byte) (value : Int) (s : State) : (latch op ns addr value s).phase = .tx := rfl
@[simp] theorem latch_reqOp (op : Op) (ns : Namespace) (addr : Byte) (value : Int) (s : State) : (latch op ns addr value s).reqOp = op := rfl
@[simp] theorem latch_reqNs (op : Op) (ns : Namespace) (addr : Byte) (value : Int) (s : State) : (latch op ns addr value s).reqNs = ns := rfl
@[simp] theorem latch_reqAddr (op : Op) (ns : Namespace) (addr : Byte) (value : Int) (s : State) : (latch op ns addr value s).reqAddr = addr := rfl
@[simp] theorem latch_reqVal (op : Op) (ns : Namespace) (addr : Byte) (value : Int) (s : State) : (latch op ns addr value s).reqVal = (if op = .write then valueOf value else s.reqVal) := rfl
@[simp] theorem latch_txq (op : Op) (ns : Namespace) (addr : Byte) (value : Int) (s : State) : (latch op ns addr value s).txq = requestFrame op ns addr (if op = .write then valueOf value else s.reqVal) := rfl
@[simp] theorem latch_ck (op : Op) (ns : Namespace) (addr : Byte) (value : Int) (s : State) : (latch op ns addr value s).ck = Config.freeCk s.free := rfl
@[simp] theorem latch_rxst (op : Op) (ns : Namespace) (addr : Byte) (value : Int) (s : State) : (latch op ns addr value s).rxst = s.rxst := rfl
@[simp] theorem latch_rxbuf (op : Op) (ns : Namespace) (addr : Byte) (value : Int) (s : State) : (latch op ns addr value s).rxbuf = s.rxbuf := rfl
@[simp] theorem latch_resStatus (op : Op) (ns : Namespace) (addr : Byte) (value : Int) (s : State) : (latch op ns addr value s).resStatus = s.resStatus := rfl
@[simp] theorem latch_resValue (op : Op) (ns : Namespace) (addr : Byte) (value : Int) (s : State) : (latch op ns addr value s).resValue = s.resValue := rfl
@[simp] theorem latch_resData (op : Op) (ns : Namespace) (addr : Byte) (value : Int) (s : State) : (latch op ns addr value s).resData = s.resData := rfl
@[simp] theorem latch_connected (op : Op) (ns : Namespace) (addr : Byte) (value : Int) (s : State) : (latch op ns addr value s).connected = s.connected := rfl
@[simp] theorem latch_verCache (op : Op) (ns : Namespace) (addr : Byte) (value : Int) (s : State) : (latch op ns addr value s).verCache = s.verCache := rfl
@[simp] theorem latch_offers (op : Op) (ns : Namespace) (addr : Byte) (value : Int) (s : State) : (latch op ns addr value s).offers = s.offers := rfl
@[simp] theorem latch_txAnswers (op : Op) (ns : Namespace) (addr : Byte) (value : Int) (s : State) : (latch op ns addr value s).txAnswers = s.txAnswers := rfl
@[simp] theorem latch_sent (op : Op) (ns : Namespace) (addr : Byte) (value : Int) (s : State) : (latch op ns addr value s).sent = s.sent := rfl
@[simp] theorem latch_rx (op : Op) (ns : Namespace) (addr : Byte) (value : Int) (s : State) : (latch op ns addr value s).rx = s.rx := rfl
@[simp] theorem latch_takes (op : Op) (ns : Namespace) (addr : Byte) (value : Int) (s : State) : (latch op ns addr value s).takes = s.takes := rfl
@[simp] theorem latch_results (op : Op) (ns : Namespace) (addr : Byte) (value : Int) (s : State) : (latch op ns addr value s).results = s.results := rfl
@[simp] theorem latch_resets (op : Op) (ns : Namespace) (addr : Byte) (value : Int) (s : State) : (latch op ns addr value s).resets = s.resets := rfl
@[simp] theorem latch_bench (op : Op) (ns : Namespace) (addr : Byte) (value : Int) (s : State) : (latch op ns addr value s).bench = s.bench := rfl
@[simp] theorem latch_unitOut (op : Op) (ns : Namespace) (addr : Byte) (value : Int) (s : State) : (latch op ns addr value s).unitOut = s.unitOut := rfl
@[simp] theorem latch_free (op : Op) (ns : Namespace) (addr : Byte) (value : Int) (s : State) : (latch op ns addr value s).free = s.free + 1 := rfl

end Sys2Proof.Machine
end

