-- ==== Sys2Proof/Laws/Wire.lean ====
section
/-! SUPPORT. What the pure functions on bytes can do: the escaper, the collector, the checksum, the checks on a frame. -/

namespace Sys2Proof.Machine

/-! ### Escaping -/

theorem reserved_iff (b : Byte) : reserved b = true ↔ b = ESC ∨ b = TAIL ∨ b = HEADB := by
  simp [reserved, or_assoc]

/-- A byte escapes to a pair if it is reserved and to itself otherwise. -/
theorem quote1_cases (b : Byte) :
    (reserved b = true ∧ quote1 b = [ESC, b]) ∨ (reserved b = false ∧ quote1 b = [b]) := by
  cases h : reserved b <;> simp [quote1, h]

theorem quote_cons (b : Byte) (s : Bytes) : quote (b :: s) = quote1 b ++ quote s := rfl

theorem quote_append (s t : Bytes) : quote (s ++ t) = quote s ++ quote t := by
  induction s with
  | nil => rfl
  | cons b s ih => simp [quote_cons, ih]

/-- The step on an escape marker that no marker precedes. -/
theorem unquoteFrom_esc (s : Bytes) : unquoteFrom .accumulating (ESC :: s) = unquoteFrom .escaped s := by
  simp [unquoteFrom, unquoteStep]

/-- The step on any other byte that no marker precedes. -/
theorem unquoteFrom_plain (b : Byte) (s : Bytes) (h : b ≠ ESC) :
    unquoteFrom .accumulating (b :: s) =
      ((unquoteFrom .accumulating s).1, (b, false) :: (unquoteFrom .accumulating s).2) := by
  simp [unquoteFrom, unquoteStep, h]

/-- The step on a byte after a marker. -/
theorem unquoteFrom_literal (b : Byte) (s : Bytes) :
    unquoteFrom .escaped (b :: s) =
      ((unquoteFrom .accumulating s).1, (b, true) :: (unquoteFrom .accumulating s).2) := by
  simp [unquoteFrom, unquoteStep]

/-! ### Collecting -/

theorem collectUntil_nil (st : RxState) (buf : Bytes) : collectUntil st buf [] = (st, buf, none) := rfl

theorem collectUntil_esc (buf s : Bytes) :
    collectUntil .accumulating buf (ESC :: s) = collectUntil .escaped buf s := by
  simp [collectUntil, collect]

theorem collectUntil_tail (buf s : Bytes) :
    collectUntil .accumulating buf (TAIL :: s) = (.accumulating, buf ++ [TAIL], some s) := rfl

theorem collectUntil_plain (b : Byte) (buf s : Bytes) (he : b ≠ ESC) (ht : b ≠ TAIL) :
    collectUntil .accumulating buf (b :: s) = collectUntil .accumulating (buf ++ [b]) s := by
  simp [collectUntil, collect, he, ht]

theorem collectUntil_literal (b : Byte) (buf s : Bytes) :
    collectUntil .escaped buf (b :: s) = collectUntil .accumulating (buf ++ [b]) s := by
  simp [collectUntil, collect]

/-- The collector is the unescaping step with the completion test added (R152). -/
theorem collect_unquoteStep (st : RxState) (buf : Bytes) (b : Byte) :
    collect st buf b =
      ((unquoteStep st b).1, buf ++ (unquoteStep st b).2.toList.map Prod.fst,
        decide ((unquoteStep st b).2 = some (TAIL, false))) := by
  cases st with
  | escaped => simp [collect, unquoteStep]
  | accumulating => by_cases h : b = ESC <;> simp [collect, unquoteStep, h]

/-! ### Checksum -/

theorem byteSum_append (s t : Bytes) : byteSum (s ++ t) = byteSum s + byteSum t := by
  induction s with
  | nil => simp [byteSum]
  | cons b s ih => simp [byteSum, ih]; omega

theorem cksum_toNat (s : Bytes) : (cksum s).toNat = byteSum s % 256 := by
  simp [cksum]

theorem ckAdd_eq (ck b : Byte) : ckAdd ck b = ck + b := by
  apply BitVec.eq_of_toNat_eq
  simp [ckAdd, BitVec.toNat_add]

theorem cksum_nil : cksum [] = 0 := rfl

theorem cksum_cons (b : Byte) (s : Bytes) : cksum (b :: s) = b + cksum s := by
  apply BitVec.eq_of_toNat_eq
  simp [cksum, byteSum, BitVec.toNat_add]

/-! ### The checks on a frame -/

/-- A buffer with a good head, a body of at least 2 bytes, a checksum byte and a last byte: what CHECKFRAME answers. -/
theorem checkFrame_parts (sender c k t : Byte) (p : Bytes) :
    checkFrame ([0x55, 0x55, sender, c] ++ p ++ [k, t]) =
      if k ≠ cksum ([sender, c] ++ p) then .error .checksumError
      else if sender ≠ DEV_ID then .error .senderError else .ok c p := by
  have hb : ([0x55, 0x55, sender, c] ++ p ++ [k, t] : Bytes) = 0x55 :: 0x55 :: sender :: c :: (p ++ [k, t]) := by simp
  have hs : slice (0x55 :: 0x55 :: sender :: c :: (p ++ [k, t])) 2 (p.length + 4) = [sender, c] ++ p := by
    simp [slice]
  have hp : slice (0x55 :: 0x55 :: sender :: c :: (p ++ [k, t])) 4 (p.length + 4) = p := by
    simp [slice]
  have hk : byteAt (0x55 :: 0x55 :: sender :: c :: (p ++ [k, t])) (p.length + 4) = k := by
    simp [byteAt]
  have h0 : byteAt (0x55 :: 0x55 :: sender :: c :: (p ++ [k, t])) 0 = HEADB := rfl
  have h1 : byteAt (0x55 :: 0x55 :: sender :: c :: (p ++ [k, t])) 1 = HEADB := rfl
  have h2 : byteAt (0x55 :: 0x55 :: sender :: c :: (p ++ [k, t])) 2 = sender := rfl
  have h3 : byteAt (0x55 :: 0x55 :: sender :: c :: (p ++ [k, t])) 3 = c := rfl
  have hl : (0x55 :: 0x55 :: sender :: c :: (p ++ [k, t])).length = p.length + 6 := by simp
  rw [hb, checkFrame, hl, h0, h1, h2, h3]
  have e : p.length + 6 - 2 = p.length + 4 := rfl
  rw [e, hs, hp, hk]
  simp [eq_comm, show ¬ (p.length + 6 < 2) by omega]

/-- A buffer without a good head, or too short, is a framing error whatever else it holds (R158, R161). -/
theorem checkFrame_framing (f : Bytes) (h : f.length < 6 ∨ f.take 2 ≠ [0x55, 0x55]) :
    checkFrame f = .error .framingError := by
  match f with
  | [] => simp [checkFrame]
  | [a] => simp [checkFrame]
  | a :: b :: r =>
    simp only [checkFrame, byteAt, List.getD_cons_zero, List.getD_cons_succ]
    by_cases ha : a = HEADB <;> by_cases hb : b = HEADB <;> simp_all

/-! ### Values and codes -/

/-- Two bytes assemble to a value exactly if they are its low and its high byte. -/
theorem joinValue_eq_iff (l h : Byte) (v : ConfigValue) : joinValue l h = v ↔ l = valLo v ∧ h = valHi v := by
  have h1 : (valLo v).toNat = v.toNat % 256 := by simp [valLo]
  have h2 : (valHi v).toNat = v.toNat / 256 := by
    simp [valHi, Nat.shiftRight_eq_div_pow]; have := v.isLt; omega
  have h3 : (joinValue l h).toNat = l.toNat + 256 * h.toNat := by
    rw [joinValue, BitVec.toNat_ofNat]; have := l.isLt; have := h.isLt; omega
  have hl := l.isLt
  have hv := v.isLt
  rw [← BitVec.toNat_inj, ← BitVec.toNat_inj, ← BitVec.toNat_inj, h1, h2, h3]
  omega

@[simp] theorem opOfCode_opCode (op : Op) : opOfCode (opCode op) = op := by cases op <;> decide
@[simp] theorem nsOfCode_nsCode (ns : Namespace) : nsOfCode (nsCode ns) = ns := by cases ns <;> decide
theorem statusCode_le (e : Status) : (statusCode e).toNat ≤ 11 := by cases e <;> decide
theorem statusCode_ok_iff (e : Status) : statusCode e = 0 ↔ e = .ok := by cases e <;> decide

end Sys2Proof.Machine
end

