-- ==== Sys2Proof/Laws/Ops.lean ====
section
/-! SUPPORT. For each shared operation one lemma that says everything it can do, and the inversion of the step. -/

namespace Sys2Proof.Machine

/-! ### The accept step -/

/-- The pre-send checks refuse with one of two codes, and only READ and WRITE. -/
theorem refusal_cases (op : Op) (value : Int) (s : State) :
    (refusal op value s = none ∧ (op = .read ∨ op = .write → s.connected = true) ∧
      (op = .write → inRange value = true)) ∨
    (refusal op value s = some .notConnected ∧ (op = .read ∨ op = .write) ∧ s.connected = false) ∨
    (refusal op value s = some .rangeError ∧ op = .write ∧ s.connected = true ∧ inRange value = false) := by
  cases op <;> cases hc : s.connected <;> cases hr : inRange value <;> simp [refusal, hc, hr]

/-- What an offered operation does: it waits, is refused, or is accepted. -/
theorem offer_cases (op : Op) (ns : Namespace) (addr : Byte) (value : Int) (s : State) :
    (s.phase ≠ .idle ∧
      offer op ns addr value s = { s with offers := s.offers ++ [⟨opCode op, nsCode ns, addr, value⟩] }) ∨
    (s.phase = .idle ∧ (op = .read ∨ op = .write) ∧
      ∃ e, (e = .notConnected ∨ e = .rangeError) ∧ offer op ns addr value s = raise op e s) ∨
    (s.phase = .idle ∧ (op = .read ∨ op = .write → s.connected = true) ∧
      offer op ns addr value s = latch op ns addr value s) := by
  by_cases hp : s.phase = .idle
  · rcases refusal_cases op value s with ⟨h, hc, _⟩ | ⟨h, ho, _⟩ | ⟨h, ho, _, _⟩
    · exact .inr (.inr ⟨hp, hc, by simp [offer, hp, accept, h]⟩)
    · exact .inr (.inl ⟨hp, ho, .notConnected, .inl rfl, by simp [offer, hp, accept, h]⟩)
    · exact .inr (.inl ⟨hp, .inr ho, .rangeError, .inr rfl, by simp [offer, hp, accept, h]⟩)
  · exact .inl ⟨hp, by simp [offer, hp]⟩

/-! ### Transmitting -/

/-- What a transmit step does on a non-empty queue: it waits, fails, or hands one byte over. -/
theorem transmit_cases (s : State) (b : Byte) (rest : Bytes) (h : s.txq = b :: rest) :
    (s.txAnswers = [] ∧ transmit s = .next s) ∨
    (∃ more, s.txAnswers = .fail :: more ∧
      transmit s = .next (transmitFail { s with txAnswers := more })) ∨
    (∃ more, s.txAnswers = .ok :: more ∧
      transmit s = .next (handOver b rest { s with txAnswers := more })) := by
  cases ha : s.txAnswers with
  | nil => simp [transmit, h, ha]
  | cons a more => cases a <;> simp [transmit, h, ha]

/-- The inversion of a transmit step that answers a state: the queue is not empty, and the step waits, fails, or hands one
byte over. -/
theorem transmit_next (s t : State) (h : transmit s = .next t) :
    ∃ b rest, s.txq = b :: rest ∧
      ((s.txAnswers = [] ∧ t = s) ∨
        (∃ more, s.txAnswers = .fail :: more ∧ t = transmitFail { s with txAnswers := more }) ∨
        (∃ more, s.txAnswers = .ok :: more ∧ t = handOver b rest { s with txAnswers := more })) := by
  cases hq : s.txq with
  | nil => simp [transmit, hq] at h
  | cons b rest =>
    refine ⟨b, rest, rfl, ?_⟩
    rcases transmit_cases s b rest hq with ⟨ha, e⟩ | ⟨more, ha, e⟩ | ⟨more, ha, e⟩ <;> rw [e] at h <;> cases h
    · exact .inl ⟨ha, rfl⟩
    · exact .inr (.inl ⟨more, ha, rfl⟩)
    · exact .inr (.inr ⟨more, ha, rfl⟩)

/-- The last byte handed over turns the engine around. -/
theorem handOver_last (b : Byte) (s : State) :
    handOver b [] s = scratchCk { s with
      sent := s.sent ++ [b], txq := [], phase := .rx, rxst := .accumulating, rxbuf := [] } := by
  simp [handOver]

/-- Any other byte handed over leaves the rest in the queue. -/
theorem handOver_more (b c : Byte) (rest : Bytes) (s : State) :
    handOver b (c :: rest) s = scratchCk { s with sent := s.sent ++ [b], txq := c :: rest } := by
  simp [handOver]

/-- With the transport accepting every byte of the queue, the transmit steps hand all of it over and turn around. -/
theorem transmitMany_all (wire : Bytes) : ∀ (s : State) (more : List TxAnswer), wire ≠ [] → s.phase = .tx →
    s.txq = wire → s.txAnswers = List.replicate wire.length .ok ++ more →
    ∃ ck n, transmitMany wire.length s = .next { s with
      sent := s.sent ++ wire, txq := [], txAnswers := more, phase := .rx, rxst := .accumulating, rxbuf := [],
      ck := ck, free := n } := by
  induction wire with
  | nil => intro _ _ h; exact absurd rfl h
  | cons b rest ih =>
    intro s more _ hp hq ha
    have h1 : transmit s =
        .next (handOver b rest { s with txAnswers := List.replicate rest.length .ok ++ more }) := by
      simp [transmit, hq, ha, List.replicate_succ]
    cases rest with
    | nil =>
      refine ⟨Config.freeCk s.free, s.free + 1, ?_⟩
      simp [transmitMany, hp, h1, handOver_last, scratchCk]
    | cons c rest =>
      obtain ⟨ck, n, e⟩ := ih (handOver b (c :: rest)
        { s with txAnswers := List.replicate (c :: rest).length .ok ++ more }) more (by simp)
        (by simp [handOver_more, hp]) (by simp [handOver_more]) (by simp [handOver_more])
      refine ⟨ck, n, ?_⟩
      rw [List.length_cons, transmitMany, if_pos hp, h1]
      simp only [e]
      simp [handOver_more, scratchCk]

/-! ### Receiving -/

/-- A byte that completes no frame is collected; `CK` is left unspecified. -/
theorem receiveByte_collects (b : Byte) (s : State) (st : RxState) (buf : Bytes)
    (h : collect s.rxst s.rxbuf b = (st, buf, false)) :
    receiveByte b s = scratchCk { s with rxst := st, rxbuf := buf } := by
  simp [receiveByte, h]

/-- A byte that completes a frame is collected and the frame evaluated in the same step. -/
theorem receiveByte_completes (b : Byte) (s : State) (st : RxState) (buf : Bytes)
    (h : collect s.rxst s.rxbuf b = (st, buf, true)) :
    receiveByte b s = evaluate (scratchCk { s with rxst := st, rxbuf := buf }) := by
  simp [receiveByte, h]

/-- What a received byte does: it is collected, and the frame is evaluated if it completed. -/
theorem receiveByte_cases (b : Byte) (s : State) :
    (∃ st buf ck n, receiveByte b s = { s with rxst := st, rxbuf := buf, ck := ck, free := n }) ∨
    (∃ st buf ck n, receiveByte b s = evaluate { s with rxst := st, rxbuf := buf, ck := ck, free := n }) := by
  unfold receiveByte
  rcases collect s.rxst s.rxbuf b with ⟨st, buf, done⟩
  cases done
  · exact .inl ⟨st, buf, _, _, rfl⟩
  · exact .inr ⟨st, buf, _, _, rfl⟩

/-- CHECKFRAME's error is never `OK`. -/
theorem checkFrame_error_ne (f : Bytes) (e : Status) (h : checkFrame f = .error e) : e ≠ .ok := by
  unfold checkFrame at h
  split at h
  · cases h; simp
  · split at h
    · cases h; simp
    · split at h
      · cases h; simp
      · split at h
        · cases h; simp
        · cases h

/-- The shape of a report: no value and no data with an error, the operation's own with `OK`, the identifier for CONNECT. -/
theorem report_shape (op : Op) (ns : Namespace) (addr : Byte) (v : ConfigValue) (f : Bytes) :
    ((report op ns addr v f).1 ≠ .ok → (report op ns addr v f).2 = (none, none)) ∧
    ((report op ns addr v f).1 = .ok →
      ((report op ns addr v f).2.1.isSome ↔ op = .read) ∧
      ((report op ns addr v f).2.2.isSome ↔ op = .version ∨ op = .connect)) ∧
    (op = .connect → (report op ns addr v f).1 = .ok → (report op ns addr v f).2.2 = some Config.fwId) := by
  unfold report
  split
  · rename_i e h; simp [checkFrame_error_ne f e h]
  · cases op <;> simp only <;> (repeat' split) <;> simp_all

/-- The report of a buffer given by its parts, the checks in their order. -/
theorem report_parts (op : Op) (ns : Namespace) (addr : Byte) (v : ConfigValue) (sender c k t : Byte) (p : Bytes) :
    report op ns addr v ([0x55, 0x55, sender, c] ++ p ++ [k, t]) =
      if k ≠ cksum ([sender, c] ++ p) then (.checksumError, none, none)
      else if sender ≠ DEV_ID then (.senderError, none, none)
      else match op with
        | .version => (.ok, none, some p)
        | .connect => if p = Config.fwId then (.ok, none, some p) else (.incompatibilityError, none, none)
        | .read =>
          if c ≠ CMD_READ then (.protocolMismatchError, none, none)
          else if p.length ≠ 2 then (.lengthError, none, none)
          else (.ok, some (joinValue (byteAt p 0) (byteAt p 1)), none)
        | .write =>
          if c ≠ CMD_WRITE then (.protocolMismatchError, none, none)
          else if p.length ≠ 4 then (.lengthError, none, none)
          else if byteAt p 0 ≠ nsByte ns ∨ byteAt p 1 ≠ addr then (.addressMismatchError, none, none)
          else if joinValue (byteAt p 2) (byteAt p 3) ≠ v then (.writeVerificationError, none, none)
          else (.ok, none, none) := by
  unfold report
  rw [checkFrame_parts sender c k t p]
  by_cases h1 : k ≠ cksum ([sender, c] ++ p)
  · rw [if_pos h1, if_pos h1]
  · rw [if_neg h1, if_neg h1]
    by_cases h2 : sender ≠ DEV_ID
    · rw [if_pos h2, if_pos h2]
    · rw [if_neg h2]
      refine Eq.trans ?_ (if_neg h2).symm
      cases op <;> rfl

/-- The evaluation ends the reception with the report of the pseudocode, and writes nothing but `PHASE`, the result latch
and, for CONNECT, the connection. -/
theorem evaluate_reports (s : State) :
    evaluate s = { s with
      phase := .res
      resStatus := statusCode (report s.reqOp s.reqNs s.reqAddr s.reqVal s.rxbuf).1
      resValue := (report s.reqOp s.reqNs s.reqAddr s.reqVal s.rxbuf).2.1
      resData := (report s.reqOp s.reqNs s.reqAddr s.reqVal s.rxbuf).2.2
      connected := if s.reqOp = .connect
        then ((report .connect s.reqNs s.reqAddr s.reqVal s.rxbuf).1 == .ok) else s.connected
      verCache := if s.reqOp = .connect
        then (report .connect s.reqNs s.reqAddr s.reqVal s.rxbuf).2.2.getD [] else s.verCache } := by
  have hne := checkFrame_error_ne s.rxbuf
  cases hc : checkFrame s.rxbuf with
  | error e =>
    have := hne e hc
    cases ho : s.reqOp <;> simp [evaluate, report, hc, ho, raise, this]
  | ok c p =>
    cases ho : s.reqOp with
    | connect =>
      by_cases hp : p = Config.fwId <;>
        simp [evaluate, report, hc, ho, evaluateConnect, hp, raise, complete]
    | version => simp [evaluate, report, hc, ho, complete]
    | read =>
      by_cases h3 : c = CMD_READ
      · match p with
        | [] => simp_all [evaluate, report, evaluateRead, raise]
        | [_] => simp_all [evaluate, report, evaluateRead, raise]
        | [_, _] => simp_all [evaluate, report, evaluateRead, complete, byteAt]
        | _ :: _ :: _ :: _ => simp_all [evaluate, report, evaluateRead, raise]
      · simp_all [evaluate, report, evaluateRead, raise]
    | write =>
      by_cases h4 : c = CMD_WRITE
      · match p with
        | [] => simp_all [evaluate, report, evaluateWrite, raise]
        | [_] => simp_all [evaluate, report, evaluateWrite, raise]
        | [_, _] => simp_all [evaluate, report, evaluateWrite, raise]
        | [_, _, _] => simp_all [evaluate, report, evaluateWrite, raise]
        | [n, a, lo, hi] =>
          by_cases ha : n ≠ nsByte s.reqNs ∨ a ≠ s.reqAddr
          · simp_all [evaluate, report, evaluateWrite, raise, byteAt]
          · by_cases hv : joinValue lo hi = s.reqVal <;>
              simp_all [evaluate, report, evaluateWrite, raise, complete, byteAt]
        | _ :: _ :: _ :: _ :: _ :: _ => simp_all [evaluate, report, evaluateWrite, raise]
      · simp_all [evaluate, report, evaluateWrite, raise]

/-- The transfers that take a stream up to the byte that completes a frame: the evaluation of the state with the buffer
collected, the rest of the stream still with the transport. -/
theorem takeMany_completes (bs : Bytes) : ∀ (s : State) (later : List RxItem) (st : RxState) (buf rest : Bytes),
    s.phase = .rx → s.rx = bs.map .byte ++ later → collectUntil s.rxst s.rxbuf bs = (st, buf, some rest) →
    ∃ ck n, takeMany bs.length s = evaluate { s with
      rx := rest.map .byte ++ later, rxst := st, rxbuf := buf, ck := ck, free := n } := by
  induction bs with
  | nil => intro s later st buf rest _ _ h; simp [collectUntil] at h
  | cons b bs ih =>
    intro s later st buf rest hp hx h
    have h1 : takeOne s = receiveByte b { s with rx := bs.map .byte ++ later } := by simp [takeOne, hx]
    rw [collectUntil] at h
    rcases hc : collect s.rxst s.rxbuf b with ⟨st1, buf1, done⟩
    rw [hc] at h
    have h2 : takeMany (b :: bs).length s = takeMany bs.length (takeOne s) := by simp [takeMany, hp]
    cases done with
    | true =>
      simp at h
      obtain ⟨rfl, rfl, rfl⟩ := h
      refine ⟨Config.freeCk s.free, s.free + 1, ?_⟩
      rw [h2, h1, receiveByte_completes b _ st1 buf1 (by simpa using hc)]
      have : ∀ n t, t.phase ≠ .rx → takeMany n t = t := by
        intro n t ht; cases n <;> simp [takeMany, ht]
      rw [this _ _ (by simp [evaluate_reports])]
      simp [scratchCk]
    | false =>
      simp at h
      have e1 : takeOne s = scratchCk { s with rx := bs.map .byte ++ later, rxst := st1, rxbuf := buf1 } := by
        rw [h1]; exact receiveByte_collects b _ st1 buf1 hc
      obtain ⟨ck, n, e⟩ := ih (takeOne s) later st buf rest
        (by simp [e1, hp]) (by simp [e1]) (by simpa [e1] using h)
      refine ⟨ck, n, ?_⟩
      rw [h2, e, e1]
      simp [scratchCk]

/-- What one receive transfer does: nothing, a failure, or one byte. -/
theorem takeOne_cases (s : State) :
    (s.rx = [] ∧ takeOne s = s) ∨
    (∃ more, s.rx = .fail :: more ∧ takeOne s = receiveFail { s with rx := more }) ∨
    (∃ b more, s.rx = .byte b :: more ∧ takeOne s = receiveByte b { s with rx := more }) := by
  match h : s.rx with
  | [] => exact .inl ⟨rfl, by simp [takeOne, h]⟩
  | .fail :: more => exact .inr (.inl ⟨more, rfl, by simp [takeOne, h]⟩)
  | .byte b :: more => exact .inr (.inr ⟨b, more, rfl, by simp [takeOne, h]⟩)

/-- A property that one transfer in `Rx` keeps, many keep. -/
theorem takeMany_induct (P : State → Prop) (h : ∀ s, s.phase = .rx → P s → P (takeOne s)) :
    ∀ (n : Nat) (s : State), P s → P (takeMany n s) := by
  intro n
  induction n with
  | zero => intro s hs; exact hs
  | succ n ih =>
    intro s hs
    by_cases hp : s.phase = .rx
    · simp only [takeMany, hp, if_true]; exact ih _ (h s hp hs)
    · simpa [takeMany, hp] using hs

/-- A property that one transmit step in `Tx` keeps, many keep. -/
theorem transmitMany_induct (P : State → Prop) (h : ∀ s t, s.phase = .tx → P s → transmit s = .next t → P t) :
    ∀ (n : Nat) (s t : State), P s → transmitMany n s = .next t → P t := by
  intro n
  induction n with
  | zero => intro s t hs e; cases e; exact hs
  | succ n ih =>
    intro s t hs e
    by_cases hp : s.phase = .tx
    · simp only [transmitMany, hp, if_true] at e
      cases ht : transmit s with
      | next s' => rw [ht] at e; exact ih _ _ (h s s' hp hs ht) e
      | fault _ => rw [ht] at e; cases e
      | refused _ => rw [ht] at e; cases e
    · simp [transmitMany, hp] at e; subst e; exact hs

/-! ### The instruction and the step -/

/-- What an instruction can do: an operation offered, request bytes sent, bytes received, or one register written. Every
arm of `exec` is one of these. -/
theorem exec_cases (i : Instr) (s t : State) (h : exec i s = .next t) :
    (∃ op ns addr value, t = offer op ns addr value s) ∨
    (∃ wire, transmitFrame wire s = .next t) ∨
    (∃ bs, t = receiveBytes bs s) ∨
    (∃ b, s.phase = .rx ∧ t = receiveByte b s) ∨
    (∃ st ck out, t = { s with rxst := st, ck := ck, unitOut := out }) := by
  cases i with
  | connect ns addr value => cases h; exact .inl ⟨_, _, _, _, rfl⟩
  | version ns addr value => cases h; exact .inl ⟨_, _, _, _, rfl⟩
  | read ns addr value => cases h; exact .inl ⟨_, _, _, _, rfl⟩
  | write ns addr value => cases h; exact .inl ⟨_, _, _, _, rfl⟩
  | reqV => exact .inr (.inl ⟨_, h⟩)
  | reqR n a k => exact .inr (.inl ⟨_, h⟩)
  | reqW n a l hi k => exact .inr (.inl ⟨_, h⟩)
  | rspV c p k => cases h; exact .inr (.inr (.inl ⟨_, rfl⟩))
  | rspR l hi k => cases h; exact .inr (.inr (.inl ⟨_, rfl⟩))
  | rspW n a l hi k => cases h; exact .inr (.inr (.inl ⟨_, rfl⟩))
  | escC3 => cases h; exact .inr (.inr (.inl ⟨_, rfl⟩))
  | esc3C => cases h; exact .inr (.inr (.inl ⟨_, rfl⟩))
  | esc55 => cases h; exact .inr (.inr (.inl ⟨_, rfl⟩))
  | rxbyte b =>
    by_cases hp : s.phase = .rx
    · simp [exec, execRxbyte, hp] at h
      exact .inr (.inr (.inr (.inl ⟨b, hp, h.symm⟩)))
    · simp [exec, execRxbyte, hp] at h
      subst h
      exact .inr (.inr (.inl ⟨[b], by simp [receiveBytes, takeMany, hp]⟩))
  | quote bs => cases h; exact .inr (.inr (.inr (.inr ⟨s.rxst, s.ck, _, rfl⟩)))
  | unquote b => cases h; exact .inr (.inr (.inr (.inr ⟨_, s.ck, _, rfl⟩)))
  | cksum bs => cases h; exact .inr (.inr (.inr (.inr ⟨s.rxst, s.ck, _, rfl⟩)))
  | ckClear => cases h; exact .inr (.inr (.inr (.inr ⟨s.rxst, _, s.unitOut, rfl⟩)))
  | ckAdd b => cases h; exact .inr (.inr (.inr (.inr ⟨s.rxst, _, s.unitOut, rfl⟩)))
  | encode c p => cases h; exact .inr (.inr (.inr (.inr ⟨s.rxst, s.ck, _, rfl⟩)))
  | checkframe => cases h; exact .inr (.inr (.inr (.inr ⟨s.rxst, s.ck, _, rfl⟩)))

/-- No meaning refuses. -/
theorem exec_not_refused (i : Instr) (s : State) (r : Refusal) : exec i s ≠ .refused r := by
  have ht : ∀ s : State, ∀ r, transmit s ≠ .refused r := by
    intro s r
    cases hq : s.txq with
    | nil => simp [transmit, hq]
    | cons b rest => rcases transmit_cases s b rest hq with ⟨_, e⟩ | ⟨_, _, e⟩ | ⟨_, _, e⟩ <;> simp [e]
  have hm : ∀ n (s : State) r, transmitMany n s ≠ .refused r := by
    intro n
    induction n with
    | zero => intro s r; simp [transmitMany]
    | succ n ih =>
      intro s r
      by_cases hp : s.phase = .tx
      · simp only [transmitMany, hp, if_true]
        cases h : transmit s with
        | next s' => exact ih s' r
        | fault _ => simp
        | refused r' => exact absurd h (ht s r')
      · simp [transmitMany, hp]
  have hf : ∀ w (s : State), transmitFrame w s ≠ .refused r := by
    intro w s
    unfold transmitFrame
    split
    · exact hm _ _ _
    · simp
  cases i with
  | reqV => exact hf _ s
  | reqR n a k => exact hf _ s
  | reqW n a l h k => exact hf _ s
  | rxbyte b => simp only [exec, execRxbyte]; split <;> simp
  | _ => simp [exec, execConnect, execVersion, execRead, execWrite, execRspV, execRspR, execRspW, execEscC3,
      execEsc3C, execEsc55, execQuote, execUnquote, execCksum, execCkClear, execCkAdd, execEncode,
      execCheckframe]

/-- With no reset due the step is the engine's own. -/
theorem step_engine (s : State) (h : resetNow s = false) : step s = engineStep (tick s) := by
  simp [step, h]

theorem tick_of_none (s : State) (h : s.resets = []) : tick s = s := by
  cases s; simp_all [tick, countDown]

/-- In a quiet environment the step is the engine's own, on the state as it is. -/
theorem step_quiet (s : State) (h : Quiet s) : step s = engineStep s := by
  rw [step_engine s (by simp [resetNow, h.1]), tick_of_none s h.1]

/-- Without the bench port a step in `Rx` is one receive transfer. -/
theorem engineStep_rx (s : State) (hb : s.bench = []) (hp : s.phase = .rx) : engineStep s = .next (takeOne s) := by
  match hx : s.rx with
  | [] => simp [engineStep, fetch, hb, hp, hx, ownStep, takeOne]
  | .fail :: more => simp [engineStep, fetch, hb, hp, hx, ownStep, takeOne]
  | .byte b :: more => simp [engineStep, fetch, hb, hp, hx, decode, exec, execRxbyte, takeOne]

/-- Without the bench port a step in `Tx` is one transmit step. -/
theorem engineStep_tx (s : State) (hb : s.bench = []) (hp : s.phase = .tx) : engineStep s = transmit s := by
  simp [engineStep, fetch, hb, hp, ownStep]

/-- Without the bench port a step in `Idle` waits or runs the operation that is offered. -/
theorem engineStep_idle (s : State) (hb : s.bench = []) (hp : s.phase = .idle) :
    (s.offers = [] ∧ engineStep s = .next s) ∨
    (∃ c more, s.offers = c :: more ∧
      engineStep s = .next (offer (opOfCode c.op) (nsOfCode c.ns) c.addr c.value { s with offers := more })) := by
  cases ho : s.offers with
  | nil => simp [engineStep, fetch, hb, hp, ho, ownStep]
  | cons c more =>
    refine .inr ⟨c, more, rfl, ?_⟩
    simp only [engineStep, fetch, hb, hp, ho, decode, decodeCommand]
    cases opOfCode c.op <;> rfl

/-- Without the bench port a step in `Res` waits or gives the result. -/
theorem engineStep_res (s : State) (hb : s.bench = []) (hp : s.phase = .res) :
    (s.takes = 0 ∧ engineStep s = .next s) ∨
    (∃ n, s.takes = n + 1 ∧ engineStep s = .next (giveResult { s with takes := n })) := by
  cases ht : s.takes with
  | zero => simp [engineStep, fetch, hb, hp, ht, ownStep]
  | succ n => simp [engineStep, fetch, hb, hp, ht, ownStep]

/-- The inversion of a step without the bench port: it waits, runs the offered operation, transmits, receives or gives the
result. -/
theorem engineStep_cases (s t : State) (hb : s.bench = []) (h : engineStep s = .next t) :
    (s.phase = .idle ∧ (t = s ∨ ∃ c more, s.offers = c :: more ∧
      t = offer (opOfCode c.op) (nsOfCode c.ns) c.addr c.value { s with offers := more })) ∨
    (s.phase = .tx ∧ transmit s = .next t) ∨
    (s.phase = .rx ∧ t = takeOne s) ∨
    (s.phase = .res ∧ (t = s ∨ ∃ n, s.takes = n + 1 ∧ t = giveResult { s with takes := n })) := by
  by_cases h1 : s.phase = .idle
  · rcases engineStep_idle s hb h1 with ⟨_, e⟩ | ⟨c, more, ho, e⟩ <;> rw [e] at h <;>
      injection h with h
    · exact .inl ⟨h1, .inl h.symm⟩
    · exact .inl ⟨h1, .inr ⟨c, more, ho, h.symm⟩⟩
  by_cases h2 : s.phase = .tx
  · rw [engineStep_tx s hb h2] at h; exact .inr (.inl ⟨h2, h⟩)
  by_cases h3 : s.phase = .rx
  · rw [engineStep_rx s hb h3] at h; injection h with h; exact .inr (.inr (.inl ⟨h3, h.symm⟩))
  have h4 : s.phase = .res := by cases hp : s.phase <;> simp_all
  rcases engineStep_res s hb h4 with ⟨_, e⟩ | ⟨n, ht, e⟩ <;> rw [e] at h <;> injection h with h
  · exact .inr (.inr (.inr ⟨h4, .inl h.symm⟩))
  · exact .inr (.inr (.inr ⟨h4, .inr ⟨n, ht, h.symm⟩⟩))

/-- The inversion of the step: a reset, an item of the bench port, or a step of the phase. -/
theorem step_cases (s t : State) (h : step s = .next t) :
    (resetNow s = true ∧ t = resetEngine (resetServed s)) ∨
    (resetNow s = false ∧ ∃ it more i, s.bench = it :: more ∧ decode s.reqOp it = .ok i ∧
      exec i { tick s with bench := more } = .next t) ∨
    (resetNow s = false ∧ s.bench = [] ∧ engineStep (tick s) = .next t) := by
  cases hr : resetNow s with
  | true => simp [step, hr] at h; exact .inl ⟨rfl, h.symm⟩
  | false =>
    rw [step_engine s hr] at h
    cases hb : s.bench with
    | nil => exact .inr (.inr ⟨rfl, rfl, h⟩)
    | cons it more =>
      simp only [engineStep, fetch, tick_bench, hb] at h
      cases hd : decode s.reqOp it with
      | error e => simp [hd] at h
      | ok i => simp [hd] at h; exact .inr (.inl ⟨rfl, it, more, i, rfl, hd, h⟩)

/-! ### Placed items -/

/-- The operation in progress matters to a response image alone. -/
theorem decodeImage_request (op op' : Op) (f : Bytes) (h : byteAt f 2 ≠ DEV_ID) :
    decodeImage op f = decodeImage op' f := by
  match f with
  | [] => rfl
  | [_] => rfl
  | [_, _] => rfl
  | [_, _, _] => rfl
  | h0 :: h1 :: sender :: command :: rest =>
    have hs : sender ≠ DEV_ID := h
    simp only [decodeImage, if_neg hs]

/-- A placed item decodes as the table's number does, whatever operation was in progress before. -/
theorem decode_wordExpect (item : Item) (s : State) :
    decode (wordExpect item s) item = decode (tableExpect item) item := by
  cases item with
  | image f =>
    by_cases h : byteAt f 2 = DEV_ID
    · simp only [wordExpect, if_pos h]
    · simp only [decode]; exact decodeImage_request _ _ f h
  | _ => rfl

/-! ### Runs -/

/-- A run of one step more. -/
theorem run_next (k : Nat) (s t : State) (h : step s = .next t) :
    (Host.Core.run core (k + 1) s : Host.Outcome State Fault Refusal) = Host.Core.run core k t := by
  have : core.step s = .next t := h
  simp only [Host.Core.run, this]

/-- A run goes on where the run before it ended. -/
theorem run_add (j k : Nat) : ∀ s t : State,
    (Host.Core.run core j s : Host.Outcome State Fault Refusal) = .next t →
    (Host.Core.run core (j + k) s : Host.Outcome State Fault Refusal) = Host.Core.run core k t := by
  induction j with
  | zero => intro s t h; cases h; simp
  | succ j ih =>
    intro s t h
    cases hs : step s with
    | next u =>
      rw [run_next j s u hs] at h
      rw [Nat.add_right_comm, run_next (j + k) s u hs]
      exact ih u t h
    | fault r =>
      have : core.step s = .fault r := hs
      simp [Host.Core.run, this] at h
    | refused r =>
      have : core.step s = .refused r := hs
      simp [Host.Core.run, this] at h

end Sys2Proof.Machine
end

