-- ==== Sys2Proof/Laws/PerInstr.lean ====
section
/-! SUPPORT. A family of statements about every instruction as syntax: an instruction that breaks a constraint of its row is never
what its encoding decodes to. -/

namespace Sys2Proof.Laws.IllFormedRefused

open Machine

/-- The decoder never answers an instruction that breaks a constraint of its row, whatever operation is in progress
(30_encoding.md R76 to R80). -/
def Statement (i : Instr) : Prop := i.wellFormed = false → ∀ op, decode op (Sys2Proof.encode i) ≠ .ok i

/-- An instruction of a row without constraints is well formed. -/
theorem of_wellFormed (i : Instr) (h : i.wellFormed = true) : Statement i := by
  intro hw; rw [h] at hw; cases hw

/-- The checks on a frame's last byte and on the constraints of its row answer no instruction that breaks one. -/
theorem framed_ok (t : Byte) (j i : Instr) (h : framed t j = .ok i) : i.defect = none := by
  unfold framed at h
  split at h
  · cases h
  · split at h
    · rename_i hd; cases h; exact hd
    · cases h

/-- What an image decodes to breaks no constraint of its row. -/
theorem decodeImage_ok (op : Op) (f : Bytes) (i : Instr) (h : decodeImage op f = .ok i) : i.defect = none := by
  unfold decodeImage decodeRequest decodeResponse at h
  repeat' split at h
  all_goals first
    | exact framed_ok _ _ _ h
    | cases h

/-- An ill-formed instruction that is encoded as an image is not what that image decodes to. -/
theorem of_image (i : Instr) (f : Bytes) (hf : Sys2Proof.encode i = .image f) : Statement i := by
  intro hw op h
  rw [hf] at h
  have := decodeImage_ok op f i h
  simp [Instr.wellFormed, this] at hw

theorem connect (ns : Namespace) (addr : Byte) (value : Int) : Statement (.connect ns addr value) := of_wellFormed _ rfl

theorem version (ns : Namespace) (addr : Byte) (value : Int) : Statement (.version ns addr value) := of_wellFormed _ rfl

theorem read (ns : Namespace) (addr : Byte) (value : Int) : Statement (.read ns addr value) := of_wellFormed _ rfl

theorem write (ns : Namespace) (addr : Byte) (value : Int) : Statement (.write ns addr value) := of_wellFormed _ rfl

theorem reqV : Statement .reqV := of_wellFormed _ rfl

theorem reqR (n : Byte) (a : Byte) (k : Byte) : Statement (.reqR n a k) := of_image _ _ rfl

theorem reqW (n : Byte) (a : Byte) (l : Byte) (h : Byte) (k : Byte) : Statement (.reqW n a l h k) := of_image _ _ rfl

theorem rspV (c : Byte) (p : Bytes) (k : Byte) : Statement (.rspV c p k) := of_image _ _ rfl

theorem rspR (l : Byte) (h : Byte) (k : Byte) : Statement (.rspR l h k) := of_image _ _ rfl

theorem rspW (n : Byte) (a : Byte) (l : Byte) (h : Byte) (k : Byte) : Statement (.rspW n a l h k) := of_image _ _ rfl

theorem escC3 : Statement .escC3 := of_wellFormed _ rfl

theorem esc3C : Statement .esc3C := of_wellFormed _ rfl

theorem esc55 : Statement .esc55 := of_wellFormed _ rfl

theorem quote (s : Bytes) : Statement (.quote s) := of_wellFormed _ rfl

theorem unquote (b : Byte) : Statement (.unquote b) := of_wellFormed _ rfl

theorem cksum (s : Bytes) : Statement (.cksum s) := of_wellFormed _ rfl

theorem ckClear : Statement .ckClear := of_wellFormed _ rfl

theorem ckAdd (b : Byte) : Statement (.ckAdd b) := of_wellFormed _ rfl

theorem encode (c : Byte) (p : Bytes) : Statement (.encode c p) := of_wellFormed _ rfl

theorem rxbyte (b : Byte) : Statement (.rxbyte b) := of_wellFormed _ rfl

theorem checkframe : Statement .checkframe := of_wellFormed _ rfl

end Sys2Proof.Laws.IllFormedRefused
end

