-- ==== Sys2Proof/Tests/Slice0.lean ====
section
/-! SUPPORT. Tests: ill-formed terms refused, words written out from 30_encoding.md, vectors of 95_test_vectors.md, and for every
statement with hypotheses a state and operands that meet them. -/

namespace Sys2Proof.Tests

open Sys2Proof Machine Host

/-! ### States -/

/-- A next state with a property. -/
def onNext (o : Outcome State Fault Refusal) (p : State → Bool) : Bool :=
  match o with
  | .next t => p t
  | .fault _ => false
  | .refused _ => false

theorem next_of_onNext (o : Outcome State Fault Refusal) (p : State → Bool) (h : onNext o p = true) :
    ∃ t, o = .next t ∧ p t = true := by
  cases o with
  | next t => exact ⟨t, rfl, h⟩
  | fault _ => cases h
  | refused _ => cases h

/-- Idle and connected. -/
def ready : State := { State.reset with connected := true, verCache := Config.fwId }

/-- In `Tx` with `q` still to be sent, the transport's next answers being `answers`. -/
def sending (op : Op) (q : Bytes) (answers : List TxAnswer) : State :=
  { ready with phase := .tx, reqOp := op, txq := q, txAnswers := answers }

/-- In `Rx`, with the request latch of `op` for (`Setup1`, 5) and the value 42, and `buf` collected. -/
def receiving (op : Op) (st : RxState) (buf : Bytes) : State :=
  { ready with phase := .rx, reqOp := op, reqAddr := 5, reqVal := 42, rxst := st, rxbuf := buf }

/-- In `Res` with an `OK` READ of 42, the host ready once. -/
def answered : State :=
  { ready with phase := .res, reqOp := .read, resValue := some 42, rxbuf := [0x3C], takes := 1 }

/-! ### Well-formedness: each check refuses an ill-formed term -/

theorem test_reqR_namespace : (Instr.reqR 0x03 0x05 0x0B).defect = some .badNamespace := by decide
theorem test_reqW_namespace : (Instr.reqW 0xFE 0x05 0x2A 0x00 0x31).defect = some .badNamespace := by decide
theorem test_reqR_checksum : (Instr.reqR 0xFF 0x05 0x08).defect = some .badChecksum := by decide
theorem test_reqW_checksum : (Instr.reqW 0x00 0x05 0x2A 0x00 0x32).defect = some .badChecksum := by decide
theorem test_rspV_checksum : (Instr.rspV 0x01 [] 0x01).defect = some .badChecksum := by decide
theorem test_rspR_checksum : (Instr.rspR 0x2A 0x00 0x2D).defect = some .badChecksum := by decide
theorem test_rspW_checksum : (Instr.rspW 0x00 0x05 0x2A 0x00 0x33).defect = some .badChecksum := by decide

/-! ### Decoding: words from R75 to R80, R85, R90; rejections by name -/

theorem test_decode_connect : decodeTableWord 8 0b00 = some (.connect .setup1 0 0) := by decide
theorem test_decode_version : decodeTableWord 8 0b01 = some (.version .setup1 0 0) := by decide
theorem test_decode_read : decode .connect (.command ⟨0b10, 0b11, 0x05, 0⟩) = .ok (.read .global 0x05 0) := by decide
theorem test_decode_write :
    decode .connect (.command ⟨0b11, 0b01, 0x51, -1⟩) = .ok (.write .setup2 0x51 (-1)) := by decide
theorem test_decode_reqV :
    decodeTableWord 48 0b010101010101010100000000000000010000000100111100 = some .reqV := by decide
theorem test_decode_reqR : decodeTableWord 64 0x55550003FF05073C = some (.reqR 0xFF 0x05 0x07) := by decide
theorem test_decode_reqW :
    decodeTableWord 80 0x5555000400052A00333C = some (.reqW 0x00 0x05 0x2A 0x00 0x33) := by decide
theorem test_decode_rspV :
    decode .version (.image [0x55, 0x55, 0xFF, 0x01, 0x42, 0x72, 0x61, 0x69, 0x6E, 0xEC, 0x3C]) =
      .ok (.rspV 0x01 [0x42, 0x72, 0x61, 0x69, 0x6E] 0xEC) := by decide
theorem test_decode_rspR : decodeTableWord 64 0x5555FF032A002C3C = some (.rspR 0x2A 0x00 0x2C) := by decide
theorem test_decode_rspW :
    decodeTableWord 80 0x5555FF0400052A00323C = some (.rspW 0x00 0x05 0x2A 0x00 0x32) := by decide
theorem test_decode_escC3 : decodeTableWord 16 0b1100001111000011 = some .escC3 := by decide
theorem test_decode_esc3C : decodeTableWord 16 0b1100001100111100 = some .esc3C := by decide
theorem test_decode_esc55 : decodeTableWord 16 0b1100001101010101 = some .esc55 := by decide
theorem test_decode_rxbyte : decode .read (.received 0x3C) = .ok (.rxbyte 0x3C) := by decide
theorem test_decode_named :
    [UnitCall.quote [0x55], .unquote 0xC3, .cksum [1], .ckClear, .ckAdd 2, .encode 3 [0xFF, 5], .checkframe].map decodeUnit =
      [.quote [0x55], .unquote 0xC3, .cksum [1], .ckClear, .ckAdd 2, .encode 3 [0xFF, 5], .checkframe] := by decide
/-- R94: the response format is chosen by the operation, not by the command byte. -/
theorem test_decode_by_operation :
    decode .version (.image [0x55, 0x55, 0xFF, 0x03, 0x2A, 0x00, 0x2C, 0x3C]) = .ok (.rspV 0x03 [0x2A, 0x00] 0x2C) ∧
    decode .write (.image [0x55, 0x55, 0xFF, 0x03, 0x2A, 0x00, 0x2C, 0x3C]) = .error .badCommand := by decide
/-- A placed request image runs under the operation in progress; a placed response under the one that expects it (log entry 15). -/
theorem test_placed_image :
    ((sending .connect [] []).withFetchWord 48 0x55550001013C).reqOp = .connect ∧
    ((sending .connect [] []).withFetchWord 64 0x5555FF032A002C3C).reqOp = .read := by decide
theorem test_reject_pair : decode .read (.pair 0xC3 0x41) = .error .notReservedLiteral ∧
    decode .read (.pair 0x3C 0xC3) = .error .notEscapeMarker := by decide
theorem test_reject_image :
    decode .read (.image [0x55, 0x55, 0x00, 0x02, 0x02, 0x3C]) = .error .badCommand ∧
    decode .read (.image [0x55, 0x54, 0x00, 0x01, 0x01, 0x3C]) = .error .badHead ∧
    decode .read (.image [0x55, 0x55, 0x01, 0x01, 0x02, 0x3C]) = .error .badSender ∧
    decode .read (.image [0x55, 0x55, 0x00, 0x01, 0x02, 0x3C]) = .error .badChecksum ∧
    decode .read (.image [0x55, 0x55, 0x00, 0x01, 0x01, 0x3D]) = .error .badTail ∧
    decode .read (.image [0x55, 0x55, 0x00, 0x01, 0x3C]) = .error .badLength ∧
    decode .read (.image [0x55, 0x55, 0x3C]) = .error .shortImage := by decide

/-! ### Vectors of 95_test_vectors.md, one step each -/

/-- ESC-7, ESC-14 -/
theorem test_quote : quote [0xC3, 0x3C, 0x55] = [0xC3, 0xC3, 0xC3, 0x3C, 0xC3, 0x55] ∧
    quote [0x54, 0x56, 0x3B, 0x3D, 0xC2, 0xC4] = [0x54, 0x56, 0x3B, 0x3D, 0xC2, 0xC4] := by decide
/-- UNQ-1, UNQ-8 -/
theorem test_unquote :
    unquote [0x00, 0xC3, 0x3C, 0xC3, 0x55, 0xC3, 0xC3, 0x41] =
      (.accumulating, [(0x00, false), (0x3C, true), (0x55, true), (0xC3, true), (0x41, false)]) ∧
    unquote [0xC3, 0xC3, 0xC3] = (.escaped, [(0xC3, true)]) := by decide
/-- CK-7, CK-10 -/
theorem test_cksum : cksum [0xFF, 0x01, 0x42, 0x72, 0x61, 0x69, 0x6E] = 0xEC ∧
    cksum [0x00, 0x04, 0xFF, 0xFF, 0xFF, 0xFF] = 0x00 := by decide
/-- CK-3, the accumulator form -/
theorem test_accumulator :
    onNext (execAll [.ckClear, .ckAdd 0x00, .ckAdd 0x03, .ckAdd 0xFF] ready) (fun t => t.ck == 0x02) = true := by decide
/-- TX-9, TX-15 -/
theorem test_encode : encodeFrame 3 [0x00, 0x39] = [0x55, 0x55, 0x00, 0x03, 0x00, 0x39, 0xC3, 0x3C, 0x3C] ∧
    encodeFrame 4 [0x01, 0xC3, 0xC3, 0xC3] =
      [0x55, 0x55, 0x00, 0x04, 0x01, 0xC3, 0xC3, 0xC3, 0xC3, 0xC3, 0xC3, 0x4E, 0x3C] := by decide
/-- RX-18, RX-23 to RX-25 -/
theorem test_checkframe :
    checkFrame [0x55, 0x55, 0xFF, 0xFF, 0x3C] = .error .framingError ∧
    checkFrame [0x55, 0x54, 0x00, 0x03, 0x2A, 0x00, 0xFF, 0x3C] = .error .framingError ∧
    checkFrame [0x55, 0x55, 0x00, 0x03, 0x2A, 0x00, 0xFF, 0x3C] = .error .checksumError ∧
    checkFrame [0x55, 0x55, 0x01, 0x03, 0x2A, 0x00, 0x2E, 0x3C] = .error .senderError := by decide
/-- RX-9, RX-4: a corrupted byte ends the frame early; an escaped tail does not end it. -/
theorem test_collect :
    collectUntil .accumulating [] [0x55, 0x55, 0xFF, 0x03, 0x3C, 0x00, 0x2C, 0x3C] =
      (.accumulating, [0x55, 0x55, 0xFF, 0x03, 0x3C], some [0x00, 0x2C, 0x3C]) ∧
    collectUntil .accumulating [] [0x55, 0x55, 0xFF, 0x03, 0x2A, 0x00, 0x2C, 0xC3, 0x3C] =
      (.accumulating, [0x55, 0x55, 0xFF, 0x03, 0x2A, 0x00, 0x2C, 0x3C], none) := by decide
/-- TX-1 -/
theorem test_connect : onNext (exec (.connect .global 9 (-7)) State.reset)
    (fun t => t.phase == .tx && t.txq == [0x55, 0x55, 0x00, 0x01, 0x01, 0x3C] && t.reqVal == 0) = true := by decide
/-- VERSION is not gated (R180). -/
theorem test_version : onNext (exec (.version .setup1 0 0) State.reset)
    (fun t => t.phase == .tx && t.reqOp == .version) = true := by decide
/-- TX-10 -/
theorem test_read : onNext (exec (.read .setup2 0x51 0) ready)
    (fun t => t.txq == [0x55, 0x55, 0x00, 0x03, 0x01, 0x51, 0xC3, 0x55, 0x3C]) = true := by decide
/-- RD-20 -/
theorem test_read_refused : onNext (exec (.read .setup1 5 0) State.reset)
    (fun t => t.phase == .res && t.resStatus == 11 && t.txq == []) = true := by decide
/-- TX-19 -/
theorem test_write : onNext (exec (.write .setup1 0x11 0x1234) ready)
    (fun t => t.txq == [0x55, 0x55, 0x00, 0x04, 0x00, 0x11, 0x34, 0x12, 0x5B, 0x3C]) = true := by decide
/-- WR-15: the gate comes first. -/
theorem test_write_refused : onNext (exec (.write .setup1 5 65536) State.reset)
    (fun t => t.phase == .res && t.resStatus == 11) = true := by decide
/-- VE-11: the transport fails on the third byte. -/
theorem test_reqV : onNext (exec .reqV (sending .version [0x55, 0x55, 0x00, 0x01, 0x01, 0x3C] [.ok, .ok, .fail]))
    (fun t => t.phase == .res && t.resStatus == 9 && t.sent == [0x55, 0x55]) = true := by decide
/-- TX-6 -/
theorem test_reqR : onNext (exec (.reqR 0x00 0x3C 0x3F)
      (sending .read [0x55, 0x55, 0x00, 0x03, 0x00, 0xC3, 0x3C, 0x3F, 0x3C] (List.replicate 9 .ok)))
    (fun t => t.phase == .rx && t.sent == [0x55, 0x55, 0x00, 0x03, 0x00, 0xC3, 0x3C, 0x3F, 0x3C]) = true := by decide
/-- The transport accepts only part of the frame: the rest stays in `TXQ` (R136). -/
theorem test_reqW : onNext (exec (.reqW 0x00 0x05 0x2A 0x00 0x33)
      (sending .write [0x55, 0x55, 0x00, 0x04, 0x00, 0x05, 0x2A, 0x00, 0x33, 0x3C] [.ok, .ok, .ok]))
    (fun t => t.phase == .tx && t.txq == [0x04, 0x00, 0x05, 0x2A, 0x00, 0x33, 0x3C]) = true := by decide
/-- VE-7: a read response given to VERSION -/
theorem test_rspV : onNext (exec (.rspV 0x03 [0x2A, 0x00] 0x2C) (receiving .version .accumulating []))
    (fun t => t.resStatus == 0 && t.resData == some [0x2A, 0x00] && t.resValue == none) = true := by decide
/-- RD-3 -/
theorem test_rspR : onNext (exec (.rspR 0x55 0x3C 0x93) (receiving .read .accumulating []))
    (fun t => t.phase == .res && t.resStatus == 0 && t.resValue == some 0x3C55) = true := by decide
/-- RD-12: a write echo given to READ -/
theorem test_rspW_in_read : onNext (exec (.rspW 0x00 0x11 0x34 0x12 0x5A) (receiving .read .accumulating []))
    (fun t => t.resStatus == 4 && t.resValue == none) = true := by decide
/-- WR-2, WR-7 -/
theorem test_rspW : onNext (exec (.rspW 0x00 0x05 0x63 0x00 0x6B) (receiving .write .accumulating []))
      (fun t => t.resStatus == 6) = true ∧
    onNext (exec (.rspW 0x00 0x06 0x63 0x00 0x6C) (receiving .write .accumulating []))
      (fun t => t.resStatus == 5) = true := by decide
/-- The tail's escape pair does not end the frame (R153). -/
theorem test_esc3C : onNext (exec .esc3C (receiving .read .accumulating [0x55]))
    (fun t => t.phase == .rx && t.rxbuf == [0x55, 0x3C]) = true := by decide
theorem test_escC3 : onNext (exec .escC3 (receiving .read .accumulating []))
    (fun t => t.rxst == .accumulating && t.rxbuf == [0xC3]) = true := by decide
theorem test_esc55 : onNext (exec .esc55 (receiving .read .escaped []))
    (fun t => t.rxst == .accumulating && t.rxbuf == [0xC3, 0x55]) = true := by decide
/-- RD-16: one payload byte -/
theorem test_rxbyte : onNext (exec (.rxbyte 0x3C) (receiving .read .accumulating [0x55, 0x55, 0xFF, 0x03, 0x2A, 0x2C]))
    (fun t => t.phase == .res && t.resStatus == 10) = true := by decide
/-- Outside `Rx` the byte stays in the transport (R42). -/
theorem test_rxbyte_idle : onNext (exec (.rxbyte 0x3C) ready) (fun t => t.rx == [.byte 0x3C] && t.rxbuf == []) = true := by
  decide
/-- R198 -/
theorem test_result : onNext (step answered)
    (fun t => t.phase == .idle && t.results == [⟨0, some 42, none⟩] && t.rxbuf == [] && t.connected) = true := by decide
/-- R290 overrides the phase. -/
theorem test_reset : onNext (step { answered with resets := [0] })
    (fun t => t.phase == .idle && t.results == [] && !t.connected) = true := by decide

/-! ### Witnesses: for each statement with hypotheses, a state and operands that meet them, each clause for itself -/

theorem witness_DecodeEncodeRoundTrip :
    (Instr.rspW 0x7F 0x05 0x2A 0x00 0xB1).wellFormed = true ∧ (Instr.rspW 0x7F 0x05 0x2A 0x00 0xB1).readUnder .write = true ∧
    (Instr.rspV 0x00 [] 0xFF).wellFormed = true ∧ (Instr.rspV 0x00 [] 0xFF).readUnder .connect = true := by decide

theorem witness_DecodedItemIsTheEncoding :
    decode .write (.image [0x55, 0x55, 0xFF, 0x04, 0x00, 0x05, 0x2A, 0x00, 0x32, 0x3C]) =
      .ok (.rspW 0x00 0x05 0x2A 0x00 0x32) := by decide

theorem witness_AccumulatorComputesChecksum : [0x05, 0x03].Perm ([0x03, 0x05] : Bytes) := by decide

theorem witness_OneChangedBodyByteIsChecksumError :
    2 ≤ (([0xFF, 0x03] : Bytes) ++ 0x2A :: [0x00]).length ∧ (0x2A : Byte) ≠ 0x2B ∧
    (0x2C : Byte) = cksum ([0xFF, 0x03] ++ 0x2A :: [0x00]) := by decide

theorem witness_CheckedBuffersAreImages :
    ([0x55, 0x55, 0xFF, 0x01, 0x00, 0x3C] : Bytes).getLast? = some TAIL ∧
    checkFrame [0x55, 0x55, 0xFF, 0x01, 0x00, 0x3C] = .ok 0x01 [] := by decide

theorem witness_CompletedBufferEndsWithBareTail :
    collectUntil .accumulating [] [0x55, 0xC3, 0x3C, 0x3C, 0x41] = (.accumulating, [0x55, 0x3C, 0x3C], some [0x41]) := by
  decide

theorem witness_UnquoteRuns :
    (receiving .read .accumulating []).rxst = .accumulating ∧ (0x41 : Byte) ≠ 0xC3 ∧
    (receiving .read .escaped []).rxst = .escaped := by decide

theorem witness_CheckframeRuns :
    (receiving .read .accumulating [0x55, 0x55, 0xFF, 0x01, 0x00, 0x3C]).rxbuf =
      [0x55, 0x55, 0xFF, 0x01] ++ [] ++ [0x00, 0x3C] ∧
    (receiving .read .accumulating [0x55, 0x55, 0xFF, 0xFF, 0x3C]).rxbuf.length < 6 ∧
    (receiving .read .accumulating [0x55, 0x54, 0xFF, 0x01, 0x00, 0x3C]).rxbuf.take 2 ≠ [0x55, 0x55] := by decide

/-- The state `ready` meets every premise of the accept statements; the values are the ends of the range. -/
theorem witness_OperationsAccepted :
    ready.phase = .idle ∧ ready.connected = true ∧ (0 : Int) ≤ 0 ∧ (0 : Int) ≤ 65535 ∧ (65535 : Int) ≤ 65535 := by decide

theorem witness_UnconnectedOperationsRefused : State.reset.phase = .idle ∧ State.reset.connected = false := by decide

theorem witness_WriteOutOfRangeRefused :
    ready.phase = .idle ∧ ready.connected = true ∧ ((-1 : Int) < 0 ∨ (65535 : Int) < -1) ∧
    ((65536 : Int) < 0 ∨ (65535 : Int) < 65536) ∧ (0 : Int) ≤ 65535 := by decide

theorem witness_OfferOutsideIdleWaits : answered.phase ≠ .idle := by decide

theorem witness_UnusedOperandsIgnored : ready.phase = .idle := by decide

theorem witness_TransmitStepAndTurnAround :
    Quiet (sending .read [0x07, 0x3C] [.ok]) ∧ (sending .read [0x07, 0x3C] [.ok]).phase = .tx ∧
    (sending .read [0x07, 0x3C] [.ok]).txq = 0x07 :: [0x3C] ∧ (sending .read [0x07, 0x3C] [.ok]).txAnswers = .ok :: [] ∧
    (sending .read [0x3C] [.ok]).txq = 0x3C :: [] := ⟨⟨rfl, rfl⟩, rfl, rfl, rfl, rfl⟩

theorem witness_TransmitFailureEndsOperation :
    Quiet (sending .connect [0x3C] [.fail]) ∧ (sending .connect [0x3C] [.fail]).phase = .tx ∧
    (sending .connect [0x3C] [.fail]).txq ≠ [] ∧ (sending .connect [0x3C] [.fail]).txAnswers = .fail :: [] :=
  ⟨⟨rfl, rfl⟩, rfl, by decide, rfl⟩

/-- Each request frame, escaped where it has to be, as what the engine is sending; and a state that sends another frame. -/
theorem witness_RequestFramesGoOut :
    (sending .version [0x55, 0x55, 0x00, 0x01, 0x01, 0x3C] (List.replicate 6 .ok)).txq =
      [0x55, 0x55, 0x00, 0x01, 0x01, 0x3C] ∧
    (sending .read [0x55, 0x55, 0x00, 0x03, 0x00, 0xC3, 0x3C, 0x3F, 0x3C] (List.replicate 9 .ok)).txq =
      [0x55, 0x55] ++ quote [0x00, 0x03, 0x00, 0x3C, 0x3F] ++ [0x3C] ∧
    (sending .write [0x55, 0x55, 0x00, 0x04, 0xFF, 0x16, 0xC3, 0x55, 0xC3, 0x55, 0xC3, 0xC3, 0x3C]
        (List.replicate 13 .ok)).txq =
      [0x55, 0x55] ++ quote [0x00, 0x04, 0xFF, 0x16, 0x55, 0x55, 0xC3] ++ [0x3C] ∧
    (sending .write [] (List.replicate 13 .ok)).txAnswers = List.replicate 13 .ok ++ [] ∧
    (sending .write [] []).phase = .tx ∧
    ¬ (ready.phase = .tx ∧ ready.txq = [0x55, 0x55, 0x00, 0x01, 0x01, 0x3C]) := by decide

theorem witness_RxbyteCollects :
    (receiving .read .escaped []).phase = .rx ∧ (receiving .read .escaped []).rxst = .escaped ∧
    (receiving .read .accumulating []).rxst = .accumulating ∧ (0x55 : Byte) ≠ 0xC3 ∧ (0x55 : Byte) ≠ 0x3C := by decide

theorem witness_TailEvaluatesFrame :
    (receiving .connect .accumulating [0x55]).phase = .rx ∧
    (receiving .connect .accumulating [0x55]).rxst = .accumulating := by decide

theorem witness_ArrivalsOutsideRxStay : ready.phase ≠ .rx := by decide

theorem witness_EscapePairsReceived :
    (receiving .read .accumulating []).phase = .rx ∧ (receiving .read .accumulating []).rx = [] ∧
    (receiving .read .accumulating []).rxst = .accumulating ∧ (receiving .read .escaped []).rxst = .escaped := by decide

/-- A fresh reception, for every operation in progress. -/
theorem witness_ResponseFramesReported : ∀ op ∈ [Op.connect, .version, .read, .write],
    (receiving op .accumulating []).phase = .rx ∧ (receiving op .accumulating []).rxst = .accumulating ∧
    (receiving op .accumulating []).rxbuf = [] ∧ (receiving op .accumulating []).rx = [] ∧
    (receiving op .accumulating []).reqOp = op := by decide

/-- For READ a checksum byte that is right and one that is wrong. -/
theorem witness_ReadResponseGivesValue :
    (receiving .read .accumulating []).phase = .rx ∧ (receiving .read .accumulating []).rxst = .accumulating ∧
    (receiving .read .accumulating []).rxbuf = [] ∧ (receiving .read .accumulating []).rx = [] ∧
    (receiving .read .accumulating []).reqOp = .read ∧ (0x2C : Byte) = 0x02 + 0x2A + 0x00 ∧
    ¬ (0x2D : Byte) = 0x02 + 0x2A + 0x00 := by decide

/-- The identifier as payload, and a payload that is longer than it. -/
theorem witness_VersionResponseReturnsPayload :
    (receiving .version .accumulating []).reqOp = .version ∧ (receiving .connect .accumulating []).reqOp = .connect ∧
    (receiving .connect .accumulating []).phase = .rx ∧ (receiving .connect .accumulating []).rxbuf = [] ∧
    (∃ p k, p = Config.fwId ∧ k = cksum ([0xFF, 0x01] ++ p)) ∧
    (∃ p k, p ≠ Config.fwId ∧ k = cksum ([0xFF, 0x01] ++ p)) :=
  ⟨rfl, rfl, rfl, rfl, ⟨_, _, rfl, rfl⟩, ⟨0 :: Config.fwId, _, by simp, rfl⟩⟩

theorem witness_WriteResponseIsCompared :
    (receiving .write .accumulating []).phase = .rx ∧ (receiving .write .accumulating []).rxst = .accumulating ∧
    (receiving .write .accumulating []).rxbuf = [] ∧ (receiving .write .accumulating []).rx = [] ∧
    (receiving .write .accumulating []).reqOp = .write := by decide

theorem witness_WriteConfirmedOnlyByItsEcho :
    ([0x55, 0x55, 0xFF, 0x04, 0x00, 0x05, 0x2A, 0x00, 0x32, 0x3C] : Bytes).getLast? = some TAIL ∧
    (report .write .setup1 5 42 [0x55, 0x55, 0xFF, 0x04, 0x00, 0x05, 0x2A, 0x00, 0x32, 0x3C]).1 = .ok := by decide

theorem witness_FirstFailingCheckIsReported :
    ([0x55, 0x55, 0xFF, 0xFF, 0x3C] : Bytes).length < 6 ∧
    ([0x55, 0x54, 0x00, 0x03, 0x2A, 0x00, 0xFF, 0x3C] : Bytes).take 2 ≠ [0x55, 0x55] := by decide

theorem witness_ReceiveFailureEndsOperation :
    Quiet { receiving .connect .escaped [0x55] with rx := [.fail] } ∧
    ({ receiving .connect .escaped [0x55] with rx := [.fail] } : State).phase = .rx ∧
    ({ receiving .connect .escaped [0x55] with rx := [.fail] } : State).rx = .fail :: [] := ⟨⟨rfl, rfl⟩, rfl, rfl⟩

theorem witness_StuckReceptionHangs :
    Quiet (receiving .read .escaped [0x55]) ∧ (receiving .read .escaped [0x55]).phase = .rx ∧
    (receiving .read .escaped [0x55]).rx = [] := ⟨⟨rfl, rfl⟩, rfl, rfl⟩

/-- An item of the bench port, an offered operation, a received byte. -/
theorem witness_StepRunsDecodedInstruction :
    resetNow { ready with bench := [.unit .ckClear] } = false ∧
    ({ ready with bench := [.unit .ckClear] } : State).bench = .unit .ckClear :: [] ∧
    decode ready.reqOp (.unit .ckClear) = .ok .ckClear ∧
    resetNow { ready with offers := [⟨2, 3, 5, 0⟩], resets := [1] } = false ∧
    decode ready.reqOp (.command ⟨2, 3, 5, 0⟩) = .ok (.read .global 5 0) ∧
    ({ receiving .read .accumulating [] with rx := [.byte 0x3C] } : State).rx = .byte 0x3C :: [] ∧
    decode .read (.received 0x3C) = .ok (.rxbyte 0x3C) := by decide

theorem witness_PlacedWordRunsNext : decodeTableWord 16 0xC33C = some .esc3C := by decide

theorem witness_EngineWaitsUnlessEnabled :
    Quiet ready ∧ ready.phase = .idle ∧ ready.offers = [] ∧
    Quiet (sending .read [0x3C] []) ∧ (sending .read [0x3C] []).phase = .tx ∧ (sending .read [0x3C] []).txq ≠ [] ∧
    (sending .read [0x3C] []).txAnswers = [] ∧
    Quiet (receiving .read .escaped []) ∧ (receiving .read .escaped []).phase = .rx ∧ (receiving .read .escaped []).rx = [] ∧
    Quiet { answered with takes := 0 } ∧ ({ answered with takes := 0 } : State).phase = .res :=
  ⟨⟨rfl, rfl⟩, rfl, rfl, ⟨rfl, rfl⟩, rfl, by decide, rfl, ⟨rfl, rfl⟩, rfl, rfl, ⟨rfl, rfl⟩, rfl⟩

theorem witness_ResultStepReturnsToIdle : Quiet answered ∧ answered.phase = .res ∧ answered.takes = 0 + 1 :=
  ⟨⟨rfl, rfl⟩, rfl, rfl⟩

theorem witness_ResetOverridesEveryPhase :
    ∀ p ∈ [Phase.idle, .tx, .rx, .res], ({ ready with phase := p, resets := [0, 2] } : State).resets = 0 :: [2] := by decide

theorem witness_OutputsFollowPhase :
    (sending .read [0x07, 0x3C] []).phase = .tx ∧ (sending .read [0x07, 0x3C] []).txq = 0x07 :: [0x3C] := by decide

/-- A state in the middle of a request. -/
def halfSent : State :=
  { State.reset with phase := .tx, reqOp := .connect, txq := [0x01, 0x01, 0x3C], txAnswers := [.ok] }

theorem witness_StepKeepsGood : Good halfSent ∧ ∃ t, step halfSent = .next t ∧ (t.txq == [0x01, 0x3C]) = true :=
  ⟨⟨by decide, by decide, by decide, (fun h => nomatch h), rfl, by decide⟩, next_of_onNext _ _ (by decide)⟩

theorem witness_StepKeepsRested : Rested halfSent ∧ ∃ t, step halfSent = .next t ∧ (t.phase == .tx) = true :=
  ⟨⟨rfl, fun _ => rfl⟩, next_of_onNext _ _ (by decide)⟩

theorem witness_GoodStateAlwaysSteps : Good halfSent ∧ halfSent.bench = [] :=
  ⟨witness_StepKeepsGood.1, rfl⟩

/-- A CONNECT that loses the connection. -/
theorem witness_OnlyConnectChangesConnection :
    (∃ t, step (sending .connect [0x3C] [.fail]) = .next t ∧ (t.connected != (sending .connect [0x3C] [.fail]).connected) = true) ∧
    resetNow (sending .connect [0x3C] [.fail]) = false := ⟨next_of_onNext _ _ (by decide), rfl⟩

theorem witness_SendsOnlyFromQueue : ∃ t, step halfSent = .next t ∧ (t.sent != halfSent.sent) = true :=
  next_of_onNext _ _ (by decide)

theorem witness_TakesBytesOnlyInRx :
    ({ receiving .read .accumulating [] with rx := [.byte 0x55] } : State).bench = [] ∧
    ∃ t, step { receiving .read .accumulating [] with rx := [.byte 0x55] } = .next t ∧ (t.rx == []) = true :=
  ⟨rfl, next_of_onNext _ _ (by decide)⟩

theorem witness_RequestLatchStable :
    (∃ t, step (receiving .write .escaped []) = .next t ∧ (t.reqOp == .write) = true) ∧
    resetNow (receiving .write .escaped []) = false ∧ (receiving .write .escaped []).phase = .rx :=
  ⟨next_of_onNext _ _ (by decide), rfl, rfl⟩

theorem witness_ErrorEntryLeavesNoValue :
    (∃ t, step (sending .connect [0x3C] [.fail]) = .next t ∧ (t.phase == .res && t.resStatus != 0) = true) ∧
    (sending .connect [0x3C] [.fail]).phase = .tx ∧ (sending .connect [0x3C] [.fail]).reqOp = .connect :=
  ⟨next_of_onNext _ _ (by decide), rfl, rfl⟩

theorem witness_PhasesFollowTheTable :
    answered.bench = [] ∧ resetNow answered = false ∧ ∃ t, step answered = .next t ∧ (t.phase != answered.phase) = true :=
  ⟨rfl, rfl, next_of_onNext _ _ (by decide)⟩

/-- READ of (`Global`, 5), the line 3 of program P1 of 95_test_vectors.md. -/
def reading : State :=
  { ready with
    offers := [⟨2, 3, 5, 0⟩]
    txAnswers := List.replicate 8 .ok
    rx := [.byte 0x55, .byte 0x55, .byte 0xFF, .byte 0x03, .byte 0x2A, .byte 0x00, .byte 0x2C, .byte 0x3C]
    takes := 1 }

theorem witness_OperationRunsAsItsPseudocode :
    Quiet reading ∧ reading.phase = .idle ∧ reading.offers = ⟨opCode .read, nsCode .global, 5, 0⟩ :: [] ∧
    reading.connected = true ∧
    reading.txAnswers = List.replicate (requestFrame .read .global 5 (valueOf 0)).length .ok ++ [] ∧
    collectUntil .accumulating [] [0x55, 0x55, 0xFF, 0x03, 0x2A, 0x00, 0x2C, 0x3C] =
      (.accumulating, [0x55, 0x55, 0xFF, 0x03, 0x2A, 0x00, 0x2C, 0x3C], some []) ∧
    reading.rx = [0x55, 0x55, 0xFF, 0x03, 0x2A, 0x00, 0x2C, 0x3C].map .byte ++ [] ∧ reading.takes = 0 + 1 :=
  ⟨⟨rfl, rfl⟩, by decide⟩

theorem witness_ReadReturnsNextReadResponse :
    Quiet reading ∧ reading.phase = .idle ∧ reading.connected = true ∧ reading.offers = ⟨2, nsCode .global, 5, 0⟩ :: [] ∧
    reading.txAnswers = List.replicate (encodeFrame 3 [nsByte .global, 5]).length .ok ++ [] ∧
    reading.rx = (frame 0xFF 3 [0x2A, 0x00]).map .byte ++ [] ∧ reading.takes = 0 + 1 := ⟨⟨rfl, rfl⟩, by decide⟩

/-- CONNECT to a device whose string is longer than the identifier. -/
def mismatched : State :=
  { State.reset with
    offers := [⟨0, 0, 0, 0⟩]
    txAnswers := List.replicate 6 .ok
    rx := (frame 0xFF 1 (0 :: Config.fwId)).map .byte
    takes := 1 }

theorem witness_IncompatibleFirmwareDisconnects :
    Quiet mismatched ∧ mismatched.phase = .idle ∧ mismatched.offers = ⟨0, nsCode .setup1, 0, 0⟩ :: [] ∧
    (0 :: Config.fwId) ≠ Config.fwId ∧ mismatched.txAnswers = List.replicate 6 .ok ++ [] ∧
    mismatched.rx = (frame 0xFF 1 (0 :: Config.fwId)).map .byte ++ [] ∧ mismatched.takes = 0 + 1 :=
  ⟨⟨rfl, rfl⟩, rfl, rfl, by simp, rfl, by simp [mismatched], rfl⟩

end Sys2Proof.Tests
end

