-- ==== Sys2Proof/Proofs/StepRules.lean ====
section
/-! PROOFS. The rules of the shared operations that the statements about the state use: what an offer, an arrival, a transfer
and a step leave unchanged, and which phase they can lead to. -/

namespace Sys2Proof.Machine

/-! ### The accept step -/

/-- R43: outside `Idle` an operation joins those offered and nothing else happens. -/
theorem offer_outside_idle (op : Op) (ns : Namespace) (addr : Byte) (value : Int) (s : State) (hp : s.phase ≠ .idle) :
    offer op ns addr value s = { s with offers := s.offers ++ [⟨opCode op, nsCode ns, addr, value⟩] } :=
  if_neg hp

@[simp] theorem offer_bench (op : Op) (ns : Namespace) (addr : Byte) (value : Int) (s : State) :
    (offer op ns addr value s).bench = s.bench := by
  rcases offer_cases op ns addr value s with ⟨_, e⟩ | ⟨_, _, _, _, e⟩ | ⟨_, _, e⟩ <;> simp [e]

@[simp] theorem offer_rx (op : Op) (ns : Namespace) (addr : Byte) (value : Int) (s : State) :
    (offer op ns addr value s).rx = s.rx := by
  rcases offer_cases op ns addr value s with ⟨_, e⟩ | ⟨_, _, _, _, e⟩ | ⟨_, _, e⟩ <;> simp [e]

@[simp] theorem offer_rxst (op : Op) (ns : Namespace) (addr : Byte) (value : Int) (s : State) :
    (offer op ns addr value s).rxst = s.rxst := by
  rcases offer_cases op ns addr value s with ⟨_, e⟩ | ⟨_, _, _, _, e⟩ | ⟨_, _, e⟩ <;> simp [e]

/-- In `Idle` an operation is accepted or refused (R192, R193). -/
theorem offer_phase_of_idle (op : Op) (ns : Namespace) (addr : Byte) (value : Int) (s : State) (hp : s.phase = .idle) :
    (offer op ns addr value s).phase = .tx ∨ (offer op ns addr value s).phase = .res := by
  rcases offer_cases op ns addr value s with ⟨hn, _⟩ | ⟨_, _, _, _, e⟩ | ⟨_, _, e⟩
  · exact absurd hp hn
  · simp [e]
  · simp [e]

/-! ### Transmitting -/

@[simp] theorem handOver_bench (b : Byte) (rest : Bytes) (s : State) : (handOver b rest s).bench = s.bench := by
  cases rest <;> simp [handOver]

@[simp] theorem handOver_rx (b : Byte) (rest : Bytes) (s : State) : (handOver b rest s).rx = s.rx := by
  cases rest <;> simp [handOver]

theorem transmit_bench (s t : State) (h : transmit s = .next t) : t.bench = s.bench := by
  obtain ⟨b, rest, _, ⟨_, rfl⟩ | ⟨_, _, rfl⟩ | ⟨_, _, rfl⟩⟩ := transmit_next s t h <;> simp

theorem transmit_rx (s t : State) (h : transmit s = .next t) : t.rx = s.rx := by
  obtain ⟨b, rest, _, ⟨_, rfl⟩ | ⟨_, _, rfl⟩ | ⟨_, _, rfl⟩⟩ := transmit_next s t h <;> simp

/-- After a transmit step the engine still transmits with `RXST` untouched, has turned around, or has failed
(R136, R137, R194). -/
theorem transmit_phase (s t : State) (hp : s.phase = .tx) (h : transmit s = .next t) :
    (t.phase = .tx ∧ t.rxst = s.rxst) ∨ t.phase = .rx ∨ t.phase = .res := by
  obtain ⟨b, rest, _, ⟨_, rfl⟩ | ⟨_, _, rfl⟩ | ⟨_, _, rfl⟩⟩ := transmit_next s t h
  · exact .inl ⟨hp, rfl⟩
  · exact .inr (.inr rfl)
  · cases rest with
    | nil => exact .inr (.inl (by simp [handOver_last]))
    | cons c rest => exact .inl (by simp [handOver_more, hp])

/-! ### Receiving -/

@[simp] theorem evaluate_phase (s : State) : (evaluate s).phase = .res := by rw [evaluate_reports]

@[simp] theorem evaluate_bench (s : State) : (evaluate s).bench = s.bench := by rw [evaluate_reports]

@[simp] theorem evaluate_rx (s : State) : (evaluate s).rx = s.rx := by rw [evaluate_reports]

@[simp] theorem receiveByte_bench (b : Byte) (s : State) : (receiveByte b s).bench = s.bench := by
  rcases receiveByte_cases b s with ⟨_, _, _, _, e⟩ | ⟨_, _, _, _, e⟩ <;> simp [e]

@[simp] theorem receiveByte_rx (b : Byte) (s : State) : (receiveByte b s).rx = s.rx := by
  rcases receiveByte_cases b s with ⟨_, _, _, _, e⟩ | ⟨_, _, _, _, e⟩ <;> simp [e]

/-- A received byte leaves the phase as it is or ends the reception (R152). -/
theorem receiveByte_phase (b : Byte) (s : State) :
    (receiveByte b s).phase = s.phase ∨ (receiveByte b s).phase = .res := by
  rcases receiveByte_cases b s with ⟨_, _, _, _, e⟩ | ⟨_, _, _, _, e⟩ <;> simp [e]

@[simp] theorem takeOne_bench (s : State) : (takeOne s).bench = s.bench := by
  rcases takeOne_cases s with ⟨_, e⟩ | ⟨_, _, e⟩ | ⟨_, _, _, e⟩ <;> simp [e]

/-- A receive transfer takes the oldest item of the transport, or nothing from an empty one (R42). -/
theorem takeOne_rx (s : State) : (takeOne s).rx = s.rx ∨ ∃ x, s.rx = x :: (takeOne s).rx := by
  rcases takeOne_cases s with ⟨_, e⟩ | ⟨more, hx, e⟩ | ⟨b, more, hx, e⟩
  · exact .inl (by rw [e])
  · exact .inr ⟨.fail, by simp [hx, e]⟩
  · exact .inr ⟨.byte b, by simp [hx, e]⟩

/-- A receive transfer leaves the phase as it is or ends the reception (R152, R196). -/
theorem takeOne_phase (s : State) : (takeOne s).phase = s.phase ∨ (takeOne s).phase = .res := by
  rcases takeOne_cases s with ⟨_, e⟩ | ⟨more, _, e⟩ | ⟨b, more, _, e⟩
  · exact .inl (by rw [e])
  · exact .inr (by rw [e]; rfl)
  · rw [e]; exact receiveByte_phase b { s with rx := more }

/-- R42, R303: outside `Rx` what arrives stays in the transport and nothing else happens. -/
theorem receiveBytes_outside_rx (bs : Bytes) (s : State) (hp : s.phase ≠ .rx) :
    receiveBytes bs s = { s with rx := s.rx ++ bs.map .byte } := by
  have hstop : ∀ n, takeMany n (arrive bs s) = arrive bs s
    | 0 => rfl
    | _ + 1 => if_neg hp
  exact hstop bs.length

/-! ### The instructions that offer or arrive -/

theorem exec_connect (ns : Namespace) (addr : Byte) (value : Int) (s : State) :
    exec (.connect ns addr value) s = .next (offer .connect ns addr value s) := rfl

theorem exec_version (ns : Namespace) (addr : Byte) (value : Int) (s : State) :
    exec (.version ns addr value) s = .next (offer .version ns addr value s) := rfl

theorem exec_read (ns : Namespace) (addr : Byte) (value : Int) (s : State) :
    exec (.read ns addr value) s = .next (offer .read ns addr value s) := rfl

theorem exec_write (ns : Namespace) (addr : Byte) (value : Int) (s : State) :
    exec (.write ns addr value) s = .next (offer .write ns addr value s) := rfl

theorem exec_rxbyte_outside_rx (b : Byte) (s : State) (hp : s.phase ≠ .rx) :
    exec (.rxbyte b) s = .next (arrive [b] s) := if_neg hp

theorem exec_escC3 (s : State) : exec .escC3 s = .next (receiveBytes [ESC, ESC] s) := rfl

theorem exec_esc3C (s : State) : exec .esc3C s = .next (receiveBytes [ESC, TAIL] s) := rfl

theorem exec_esc55 (s : State) : exec .esc55 s = .next (receiveBytes [ESC, HEADB] s) := rfl

theorem exec_rspV (c : Byte) (p : Bytes) (k : Byte) (s : State) :
    exec (.rspV c p k) s = .next (receiveBytes (wireForm ([DEV_ID, c] ++ p ++ [k])) s) := rfl

theorem exec_rspR (l h k : Byte) (s : State) :
    exec (.rspR l h k) s = .next (receiveBytes (wireForm [DEV_ID, CMD_READ, l, h, k]) s) := rfl

theorem exec_rspW (n a l h k : Byte) (s : State) :
    exec (.rspW n a l h k) s = .next (receiveBytes (wireForm [DEV_ID, CMD_WRITE, n, a, l, h, k]) s) := rfl

/-! ### The step -/

/-- Where no reset is asserted, the step runs the instruction that the fetched item decodes to. -/
theorem step_of_fetch (s s' : State) (it : Item) (i : Instr) (hr : resetNow s = false)
    (hf : fetch (tick s) = some (it, s')) (hd : decode s'.reqOp it = .ok i) : step s = exec i s' := by
  simp only [step_engine s hr, engineStep, hf, hd]

/-- The bench port goes before every channel (log entry 6). -/
theorem fetch_of_bench (s : State) (it : Item) (more : List Item) (hb : s.bench = it :: more) :
    fetch s = some (it, { s with bench := more }) := by
  simp only [fetch, hb]

/-- `Idle` enables the command channel (R28). -/
theorem fetch_of_offer (s : State) (c : Command) (more : List Command) (hb : s.bench = []) (hp : s.phase = .idle)
    (ho : s.offers = c :: more) : fetch s = some (.command c, { s with offers := more }) := by
  simp only [fetch, hb, hp, ho]

/-- `Rx` enables the receive channel (R28). -/
theorem fetch_of_received (s : State) (b : Byte) (more : List RxItem) (hb : s.bench = []) (hp : s.phase = .rx)
    (hx : s.rx = .byte b :: more) : fetch s = some (.received b, { s with rx := more }) := by
  simp only [fetch, hb, hp, hx]

end Sys2Proof.Machine
end

