-- ==== Sys2Proof/Proofs/StateInvariant.lean ====
section
/-! PROOFS. The engine's invariant `Good`, operation by operation, and its preservation by every step. -/

namespace Sys2Proof
open Machine

/-! ### States with the invariant -/

/-- A state with the registers that `Good` speaks of and everything else as after reset: the deframer's flag, the accumulator,
the channels and the model's own fields are no part of the invariant. -/
def goodPart (s : State) : State :=
  { State.reset with
    phase := s.phase, reqOp := s.reqOp, reqNs := s.reqNs, reqAddr := s.reqAddr, reqVal := s.reqVal, txq := s.txq,
    rxbuf := s.rxbuf, resStatus := s.resStatus, resValue := s.resValue, resData := s.resData,
    connected := s.connected, verCache := s.verCache }

theorem good_goodPart_iff (s : State) : Good (goodPart s) ↔ Good s :=
  ⟨fun h => ⟨h.txRest, h.txEmpty, h.bufferEmpty, h.latch, h.cache, h.gate⟩,
    fun h => ⟨h.txRest, h.txEmpty, h.bufferEmpty, h.latch, h.cache, h.gate⟩⟩

/-- States that agree on the registers of the invariant have it together. -/
theorem Good.congr {s t : State} (h : Good s) (e : goodPart t = goodPart s) : Good t :=
  (good_goodPart_iff t).mp (e ▸ (good_goodPart_iff s).mpr h)

/-- In `Rx` the invariant leaves the buffer open too. -/
theorem Good.collecting {s : State} (h : Good s) (hp : s.phase = .rx) (rxst : RxState) (rxbuf : Bytes) (ck : Byte)
    (free : Nat) : Good { s with rxst := rxst, rxbuf := rxbuf, ck := ck, free := free } :=
  ⟨h.txRest, h.txEmpty, fun hq => by simp [hp] at hq, h.latch, h.cache, h.gate⟩

/-- What the invariant asks of an idle state. -/
theorem good_of_idle {s : State} (hp : s.phase = .idle) (hq : s.txq = []) (hb : s.rxbuf = [])
    (hc : s.verCache = if s.connected then Config.fwId else []) : Good s where
  txRest h := by simp [hp] at h
  txEmpty _ := hq
  bufferEmpty _ := hb
  latch h := by simp [hp] at h
  cache := hc
  gate h := by simp [hp] at h

/-- What the invariant asks of a state with a result to give. -/
theorem good_of_res {s : State} (hp : s.phase = .res) (hq : s.txq = []) (hl : LatchShape s)
    (hc : s.verCache = if s.connected then Config.fwId else []) : Good s where
  txRest h := by simp [hp] at h
  txEmpty _ := hq
  bufferEmpty h := by simp [hp] at h
  latch _ := hl
  cache := hc
  gate h := by simp [hp] at h

theorem good_reset : Good State.reset := good_of_idle rfl rfl rfl rfl

/-! ### Errors and results -/

/-- An error leaves a latch without value and data (R30, R262). -/
theorem latchShape_raise (op : Op) (e : Status) (s : State) (he : e ≠ .ok) : LatchShape (raise op e s) :=
  ⟨statusCode_le e, fun _ => ⟨rfl, rfl⟩, fun h0 => absurd ((statusCode_ok_iff e).mp h0) he⟩

/-- An error is taken with the queue empty; CONNECT's loses connection and cache together. -/
theorem good_raise (op : Op) (e : Status) (s : State) (he : e ≠ .ok) (hq : s.txq = [])
    (hc : s.verCache = if s.connected then Config.fwId else []) : Good (raise op e s) := by
  refine good_of_res rfl hq (latchShape_raise op e s he) ?_
  by_cases ho : op = .connect <;> simp [ho, hc]

/-- The report of a completed buffer is a latch of the shape of R30. -/
theorem latchShape_evaluate (s : State) : LatchShape (evaluate s) := by
  obtain ⟨herr, hok, _⟩ := report_shape s.reqOp s.reqNs s.reqAddr s.reqVal s.rxbuf
  rw [evaluate_reports]
  refine ⟨statusCode_le _, fun hne => ?_, fun h0 => hok ((statusCode_ok_iff _).mp h0)⟩
  have hno := herr fun h => hne ((statusCode_ok_iff _).mpr h)
  exact ⟨congrArg Prod.fst hno, congrArg Prod.snd hno⟩

/-- The evaluation connects with the identifier in the cache, or disconnects and empties it; no other operation touches
either (R232 to R234). -/
theorem cache_evaluate (s : State) (hc : s.verCache = if s.connected then Config.fwId else []) :
    (evaluate s).verCache = if (evaluate s).connected then Config.fwId else [] := by
  obtain ⟨herr, _, hid⟩ := report_shape .connect s.reqNs s.reqAddr s.reqVal s.rxbuf
  rw [evaluate_reports]
  by_cases ho : s.reqOp = .connect
  · by_cases hk : (report .connect s.reqNs s.reqAddr s.reqVal s.rxbuf).1 = .ok
    · simp [ho, hk, hid rfl hk]
    · simp [ho, hk, herr hk]
  · simp [ho, hc]

theorem Good.evaluate {s : State} (h : Good s) (hp : s.phase = .rx) : Good (evaluate s) :=
  good_of_res (evaluate_phase s) (by rw [evaluate_reports]; exact h.txEmpty (by simp [hp])) (latchShape_evaluate s)
    (cache_evaluate s h.cache)

theorem Good.giveResult {s : State} (h : Good s) : Good (giveResult s) := good_of_idle rfl rfl rfl h.cache

theorem good_resetEngine (s : State) : Good (resetEngine s) := good_of_idle rfl rfl rfl rfl

/-! ### Accepting and transmitting -/

theorem requestFrame_ne_nil (op : Op) (ns : Namespace) (addr : Byte) (v : ConfigValue) :
    requestFrame op ns addr v ≠ [] := by
  simp [requestFrame, encodeFrame, frame]

/-- The accept step loads the whole request frame, and the gate has let the operation through (R180, R192). -/
theorem Good.latched {s : State} (h : Good s) (hp : s.phase = .idle) (op : Op) (ns : Namespace) (addr : Byte)
    (value : Int) (hg : op = .read ∨ op = .write → s.connected = true) : Good (Machine.latch op ns addr value s) where
  txRest _ := ⟨requestFrame_ne_nil _ _ _ _, List.suffix_refl _⟩
  txEmpty hn := absurd rfl hn
  bufferEmpty _ := h.bufferEmpty (.inl hp)
  latch hn := by simp at hn
  cache := h.cache
  gate _ := hg

theorem Good.offer {s : State} (h : Good s) (op : Op) (ns : Namespace) (addr : Byte) (value : Int) :
    Good (offer op ns addr value s) := by
  rcases offer_cases op ns addr value s with ⟨_, e⟩ | ⟨hp, _, x, hx, e⟩ | ⟨hp, hg, e⟩ <;> rw [e]
  · exact h.congr rfl
  · exact good_raise op x s (by rcases hx with rfl | rfl <;> simp) (h.txEmpty (by simp [hp])) h.cache
  · exact h.latched hp op ns addr value hg

theorem Good.transmitFail {s : State} (h : Good s) : Good (transmitFail s) :=
  (good_raise s.reqOp .transportError { s with txq := [] } (by simp) rfl h.cache).congr rfl

/-- Handing a byte over leaves a shorter rest of the same frame, or turns around with an empty queue (R136, R137). -/
theorem Good.handOver {s : State} (h : Good s) (hp : s.phase = .tx) {b : Byte} {rest : Bytes} (hq : s.txq = b :: rest) :
    Good (handOver b rest s) := by
  obtain ⟨_, hrest⟩ := h.txRest hp
  cases rest with
  | nil =>
    rw [handOver_last]
    exact ⟨fun hn => by simp at hn, fun _ => rfl, fun _ => rfl, fun hn => by simp at hn, h.cache,
      fun _ => h.gate (.inl hp)⟩
  | cons c rest =>
    rw [handOver_more]
    have hsuf : c :: rest <:+ requestFrame s.reqOp s.reqNs s.reqAddr s.reqVal :=
      (List.suffix_cons b _).trans (hq ▸ hrest)
    exact ⟨fun _ => ⟨by simp, hsuf⟩, fun hn => absurd hp hn, h.bufferEmpty, h.latch, h.cache, h.gate⟩

theorem Good.transmit {s t : State} (h : Good s) (hp : s.phase = .tx) (ht : transmit s = .next t) : Good t := by
  obtain ⟨b, rest, hq, ⟨_, rfl⟩ | ⟨more, _, rfl⟩ | ⟨more, _, rfl⟩⟩ := transmit_next s t ht
  · exact h
  · exact Good.transmitFail (s := { s with txAnswers := more }) (h.congr rfl)
  · exact Good.handOver (s := { s with txAnswers := more }) (h.congr rfl) hp hq

theorem Good.transmitFrame {s t : State} (h : Good s) (wire : Bytes) (ht : transmitFrame wire s = .next t) : Good t := by
  unfold Machine.transmitFrame at ht
  split at ht
  · exact transmitMany_induct Good (fun _ _ hp hg => hg.transmit hp) _ s t h ht
  · cases ht; exact h

/-! ### Receiving -/

theorem Good.receiveByte {s : State} (h : Good s) (hp : s.phase = .rx) (b : Byte) : Good (receiveByte b s) := by
  rcases receiveByte_cases b s with ⟨st, buf, ck, n, e⟩ | ⟨st, buf, ck, n, e⟩ <;> rw [e]
  · exact h.collecting hp st buf ck n
  · exact (h.collecting hp st buf ck n).evaluate hp

theorem Good.receiveFail {s : State} (h : Good s) (hp : s.phase = .rx) : Good (receiveFail s) :=
  (good_raise s.reqOp .transportError s (by simp) (h.txEmpty (by simp [hp])) h.cache).congr rfl

theorem Good.takeOne {s : State} (h : Good s) (hp : s.phase = .rx) : Good (takeOne s) := by
  rcases takeOne_cases s with ⟨_, e⟩ | ⟨more, _, e⟩ | ⟨b, more, _, e⟩ <;> rw [e]
  · exact h
  · exact Good.receiveFail (s := { s with rx := more }) (h.congr rfl) hp
  · exact Good.receiveByte (s := { s with rx := more }) (h.congr rfl) hp b

theorem Good.receiveBytes {s : State} (h : Good s) (bs : Bytes) : Good (receiveBytes bs s) :=
  takeMany_induct Good (fun _ hp hg => hg.takeOne hp) bs.length _ (h.congr rfl)

/-! ### The instruction and the step -/

/-- Every instruction keeps the invariant, run by itself in any phase. -/
theorem Good.exec {s t : State} (h : Good s) (i : Instr) (ht : exec i s = .next t) : Good t := by
  rcases exec_cases i s t ht with ⟨op, ns, addr, value, rfl⟩ | ⟨wire, hw⟩ | ⟨bs, rfl⟩ | ⟨b, hp, rfl⟩ | ⟨st, ck, out, rfl⟩
  · exact h.offer op ns addr value
  · exact h.transmitFrame wire hw
  · exact h.receiveBytes bs
  · exact h.receiveByte hp b
  · exact h.congr rfl

/-- The steps of R199 keep the invariant. -/
theorem Good.engineStep {s t : State} (h : Good s) (hb : s.bench = []) (ht : engineStep s = .next t) : Good t := by
  rcases engineStep_cases s t hb ht with
    ⟨_, rfl | ⟨c, more, _, rfl⟩⟩ | ⟨hp, htx⟩ | ⟨hp, rfl⟩ | ⟨_, rfl | ⟨n, _, rfl⟩⟩
  · exact h
  · exact Good.offer (s := { s with offers := more }) (h.congr rfl) _ _ _ _
  · exact h.transmit hp htx
  · exact h.takeOne hp
  · exact h
  · exact Good.giveResult (s := { s with takes := n }) (h.congr rfl)

/-- Settles O49: reset, an item of the bench port and the steps of R199 each keep `Good`. -/
theorem stepKeepsGood : Obligations.StepKeepsGood := by
  intro s t h ht
  rcases step_cases s t ht with ⟨_, rfl⟩ | ⟨_, _, more, i, _, _, he⟩ | ⟨_, hb, he⟩
  · exact good_resetEngine _
  · exact Good.exec (s := { tick s with bench := more }) (h.congr rfl) i he
  · exact Good.engineStep (s := tick s) (h.congr rfl) hb he

end Sys2Proof
end

