-- ==== Sys2Proof/Proofs/StateRules.lean ====
section
/-! PROOFS. The rules of 10_state.md for every step: the deframer at rest, the transport, the order of the phases; and the
statements about offers, arrivals, the fetched item, the outputs and the state after reset. -/

namespace Sys2Proof
open Machine

/-! ### The steps without the bench port -/

/-- No step of R199 fills the bench port (log entry 6). -/
theorem engineStep_bench (s t : State) (hb : s.bench = []) (h : engineStep s = .next t) : t.bench = [] := by
  rcases engineStep_cases s t hb h with
    ⟨_, rfl | ⟨_, _, _, rfl⟩⟩ | ⟨_, htx⟩ | ⟨_, rfl⟩ | ⟨_, rfl | ⟨_, _, rfl⟩⟩
  · exact hb
  · simp [hb]
  · rw [transmit_bench s t htx, hb]
  · simp [hb]
  · exact hb
  · simp [hb]

/-- A step of R199 takes at most the oldest item of the transport, in `Rx` alone (R42). -/
theorem engineStep_takes_oldest (s t : State) (hb : s.bench = []) (h : engineStep s = .next t) :
    t.rx = s.rx ∨ (s.phase = .rx ∧ ∃ x, s.rx = x :: t.rx) := by
  rcases engineStep_cases s t hb h with
    ⟨_, rfl | ⟨_, _, _, rfl⟩⟩ | ⟨_, htx⟩ | ⟨hp, rfl⟩ | ⟨_, rfl | ⟨_, _, rfl⟩⟩
  · exact .inl rfl
  · exact .inl (by simp)
  · exact .inl (transmit_rx s t htx)
  · exact (takeOne_rx s).imp_right fun hx => ⟨hp, hx⟩
  · exact .inl rfl
  · exact .inl rfl

/-- After a step of R199 into `Idle` or `Tx` the deframer is at rest, if it was at rest in those phases before
(R137, R198). -/
theorem engineStep_rests (s t : State) (hr : Rested s) (h : engineStep s = .next t) (hp : t.phase = .idle ∨ t.phase = .tx) :
    t.rxst = .accumulating := by
  obtain ⟨hb, hrest⟩ := hr
  rcases engineStep_cases s t hb h with
    ⟨hi, rfl | ⟨_, _, _, rfl⟩⟩ | ⟨htx, ht⟩ | ⟨hrx, rfl⟩ | ⟨_, rfl | ⟨_, _, rfl⟩⟩
  · exact hrest hp
  · simpa using hrest (.inl hi)
  · rcases transmit_phase s t htx ht with ⟨_, e⟩ | e | e
    · rw [e]; exact hrest (.inr htx)
    · simp [e] at hp
    · simp [e] at hp
  · rcases takeOne_phase s with e | e <;> simp [e, hrx] at hp
  · exact hrest hp
  · rfl

/-- A step of R199 stays in its phase or goes on as the table says. -/
theorem engineStep_phase (s t : State) (hb : s.bench = []) (h : engineStep s = .next t) :
    t.phase = s.phase ∨
    (s.phase = .idle ∧ (t.phase = .tx ∨ t.phase = .res)) ∨
    (s.phase = .tx ∧ (t.phase = .rx ∨ t.phase = .res)) ∨
    (s.phase = .rx ∧ t.phase = .res) ∨
    (s.phase = .res ∧ t.phase = .idle ∧ t.results.length = s.results.length + 1) := by
  rcases engineStep_cases s t hb h with
    ⟨hp, rfl | ⟨_, more, _, rfl⟩⟩ | ⟨hp, htx⟩ | ⟨hp, rfl⟩ | ⟨hp, rfl | ⟨_, _, rfl⟩⟩
  · exact .inl rfl
  · exact .inr (.inl ⟨hp, offer_phase_of_idle _ _ _ _ { s with offers := more } hp⟩)
  · rcases transmit_phase s t hp htx with ⟨e, _⟩ | e
    · exact .inl (e.trans hp.symm)
    · exact .inr (.inr (.inl ⟨hp, e⟩))
  · exact (takeOne_phase s).imp_right fun e => .inr (.inr (.inl ⟨hp, e⟩))
  · exact .inl rfl
  · exact .inr (.inr (.inr (.inr ⟨hp, rfl, by simp⟩)))

/-! ### Every step -/

/-- Settles O50: with the bench port empty a step is a reset or one of R199. -/
theorem stepKeepsRested : Obligations.StepKeepsRested := by
  intro s t hr h
  have hb : s.bench = [] := hr.1
  rcases step_cases s t h with ⟨_, rfl⟩ | ⟨_, _, _, _, hn, _⟩ | ⟨_, _, he⟩
  · exact ⟨hb, fun _ => rfl⟩
  · simp [hb] at hn
  · exact ⟨engineStep_bench (tick s) t hb he, engineStep_rests (tick s) t hr he⟩

/-- Settles O54: a reset leaves the transport alone (R291), and a step of R199 takes at most its oldest item. -/
theorem takesBytesOnlyInRx : Obligations.TakesBytesOnlyInRx := by
  intro s t hb h
  rcases step_cases s t h with ⟨_, rfl⟩ | ⟨_, _, _, _, hn, _⟩ | ⟨hr, _, he⟩
  · exact .inl rfl
  · simp [hb] at hn
  · exact (engineStep_takes_oldest (tick s) t hb he).imp_right fun ⟨hp, hx⟩ => ⟨hp, hr, hx⟩

/-- Settles O57: a step without reset and bench port is one of R199. -/
theorem phasesFollowTheTable : Obligations.PhasesFollowTheTable := by
  intro s t hb hr h hne
  rw [step_engine s hr] at h
  exact (engineStep_phase (tick s) t hb h).resolve_left hne

/-! ### Instructions outside their phase -/

/-- Settles O25: each of the four operations is an offer, which waits outside `Idle`. -/
theorem offerOutsideIdleWaits : Obligations.OfferOutsideIdleWaits := by
  intro s ns addr value hp
  simp only [exec_connect, exec_version, exec_read, exec_write, offer_outside_idle _ _ _ _ s hp]
  exact ⟨rfl, rfl, rfl, rfl⟩

/-- Settles O32: each of the seven is bytes arriving, which stay in the transport outside `Rx`. -/
theorem arrivalsOutsideRxStay : Obligations.ArrivalsOutsideRxStay := by
  intro s b c n a l h k p hp
  simp only [exec_rxbyte_outside_rx b s hp, exec_escC3, exec_esc3C, exec_esc55, exec_rspV, exec_rspR, exec_rspW,
    receiveBytes_outside_rx _ s hp]
  exact ⟨rfl, rfl, rfl, rfl, rfl, rfl, rfl⟩

/-! ### The fetched item, the outputs, the state after reset -/

/-- Settles O42: `fetch` on the state one step nearer to its reset, from each of its three sources. -/
theorem stepRunsDecodedInstruction : Obligations.StepRunsDecodedInstruction := by
  intro s hr
  refine ⟨fun it more i hb hd => ?_, fun c more i hb hp ho hd => ?_, fun b more i hb hp hx hd => ?_⟩
  · exact step_of_fetch s _ it i hr (fetch_of_bench (tick s) it more hb) hd
  · exact step_of_fetch s _ (.command c) i hr (fetch_of_offer (tick s) c more hb hp ho) hd
  · exact step_of_fetch s _ (.received b) i hr (fetch_of_received (tick s) b more hb hp hx) hd

/-- Settles O47: the outputs are functions of `PHASE`, the connection and the front of `TXQ`. -/
theorem outputsFollowPhase : Obligations.OutputsFollowPhase := by
  refine ⟨rfl, fun s => ⟨rfl, rfl, rfl, rfl, rfl, rfl⟩, fun s b rest hp hq => ?_⟩
  simp [outputs, hp, hq]

/-- Settles O48. -/
theorem resetIsGood : Obligations.ResetIsGood := ⟨good_reset, rfl, fun _ => rfl⟩

end Sys2Proof
end

