-- ==== Sys2Proof/Proofs/SentBytes.lean ====
section
/-! PROOFS. What a step sends (R61, R136, R139): which operations leave the sent bytes as they are, and what the transmit steps
take from the front of `TXQ`. -/

namespace Sys2Proof.Machine

/-! ### Operations that send nothing -/

@[simp] theorem offer_sent (op : Op) (ns : Namespace) (addr : Byte) (value : Int) (s : State) :
    (offer op ns addr value s).sent = s.sent := by
  rcases offer_cases op ns addr value s with ⟨_, e⟩ | ⟨_, _, _, _, e⟩ | ⟨_, _, e⟩ <;> simp [e]

@[simp] theorem evaluate_sent (s : State) : (evaluate s).sent = s.sent := by rw [evaluate_reports]

@[simp] theorem receiveByte_sent (b : Byte) (s : State) : (receiveByte b s).sent = s.sent := by
  rcases receiveByte_cases b s with ⟨_, _, _, _, e⟩ | ⟨_, _, _, _, e⟩ <;> simp [e]

@[simp] theorem takeOne_sent (s : State) : (takeOne s).sent = s.sent := by
  rcases takeOne_cases s with ⟨_, e⟩ | ⟨_, _, e⟩ | ⟨_, _, _, e⟩ <;> simp [e]

@[simp] theorem receiveBytes_sent (bs : Bytes) (s : State) : (receiveBytes bs s).sent = s.sent :=
  takeMany_induct (fun u => u.sent = s.sent) (fun u _ hu => (takeOne_sent u).trans hu) bs.length (arrive bs s) rfl

/-! ### Handing a byte over -/

@[simp] theorem handOver_sent (b : Byte) (rest : Bytes) (s : State) : (handOver b rest s).sent = s.sent ++ [b] := by
  cases rest with
  | nil => simp [handOver_last]
  | cons c rest => simp [handOver_more]

@[simp] theorem handOver_txq (b : Byte) (rest : Bytes) (s : State) : (handOver b rest s).txq = rest := by
  cases rest with
  | nil => simp [handOver_last]
  | cons c rest => simp [handOver_more]

/-! ### Sending from the queue -/

/-- From `s` to `t` the bytes of a prefix of `TXQ`, possibly empty, went out in order, and unless the transmission was
abandoned the rest is what `TXQ` holds (R136, R139, R194). -/
def SentFromQueue (s t : State) : Prop :=
  ∃ out, out <+: s.txq ∧ t.sent = s.sent ++ out ∧ (t.phase = .tx ∨ t.phase = .rx → s.txq = out ++ t.txq)

theorem SentFromQueue.refl (s : State) : SentFromQueue s s :=
  ⟨[], List.nil_prefix, by simp, fun _ => rfl⟩

/-- While the transmission goes on, what is sent next follows what was sent before. -/
theorem SentFromQueue.trans {s u t : State} (h : SentFromQueue s u) (hu : u.phase = .tx) (h' : SentFromQueue u t) :
    SentFromQueue s t := by
  obtain ⟨out, _, hsent, hrest⟩ := h
  obtain ⟨out', hpre', hsent', hrest'⟩ := h'
  have hq : s.txq = out ++ u.txq := hrest (.inl hu)
  refine ⟨out ++ out', ?_, by rw [hsent', hsent, List.append_assoc], fun hp => ?_⟩
  · rw [hq]; exact (List.prefix_append_right_inj out).mpr hpre'
  · rw [hq, hrest' hp, List.append_assoc]

/-- A transmit step sends nothing, or the one byte at the front of the queue (R136, R194). -/
theorem transmit_sentFromQueue (s t : State) (h : transmit s = .next t) : SentFromQueue s t := by
  obtain ⟨b, rest, hq, ⟨_, rfl⟩ | ⟨_, _, rfl⟩ | ⟨_, _, rfl⟩⟩ := transmit_next s t h
  · exact .refl _
  · exact ⟨[], List.nil_prefix, by simp, fun hp => by simp at hp⟩
  · exact ⟨[b], by simp [hq], by simp, fun _ => by simp [hq]⟩

/-- A request frame run by itself sends nothing, or in `Tx` bytes from the front of the queue (R139). -/
theorem transmitFrame_sent (wire : Bytes) (s t : State) (h : transmitFrame wire s = .next t) :
    t.sent = s.sent ∨ (s.phase = .tx ∧ SentFromQueue s t) := by
  unfold transmitFrame at h
  split at h
  next hsending =>
    have hkeeps : ∀ u v, u.phase = .tx → SentFromQueue s u → transmit u = .next v → SentFromQueue s v :=
      fun u v hu hsu huv => hsu.trans hu (transmit_sentFromQueue u v huv)
    exact .inr ⟨hsending.1, transmitMany_induct (SentFromQueue s) hkeeps _ s t (.refl s) h⟩
  next => cases h; exact .inl rfl

/-! ### The instruction and the step -/

/-- An instruction sends nothing, or it is the request frame in transmission. -/
theorem exec_sent (i : Instr) (s t : State) (h : exec i s = .next t) :
    t.sent = s.sent ∨ (s.phase = .tx ∧ SentFromQueue s t) := by
  rcases exec_cases i s t h with ⟨_, _, _, _, rfl⟩ | ⟨wire, hw⟩ | ⟨_, rfl⟩ | ⟨_, _, rfl⟩ | ⟨_, _, _, rfl⟩
  · exact .inl (offer_sent _ _ _ _ s)
  · exact transmitFrame_sent wire s t hw
  · exact .inl (receiveBytes_sent _ s)
  · exact .inl (receiveByte_sent _ s)
  · exact .inl rfl

/-- Of the steps of R199 only the transmit step sends. -/
theorem engineStep_sent (s t : State) (hb : s.bench = []) (h : engineStep s = .next t) :
    t.sent = s.sent ∨ (s.phase = .tx ∧ SentFromQueue s t) := by
  rcases engineStep_cases s t hb h with
    ⟨_, rfl | ⟨_, _, _, rfl⟩⟩ | ⟨hp, htx⟩ | ⟨_, rfl⟩ | ⟨_, rfl | ⟨_, _, rfl⟩⟩
  · exact .inl rfl
  · exact .inl (by simp)
  · exact .inr ⟨hp, transmit_sentFromQueue s t htx⟩
  · exact .inl (takeOne_sent s)
  · exact .inl rfl
  · exact .inl rfl

/-- R291: a reset sends nothing; every other step sends nothing or bytes from the front of the queue. -/
theorem step_sent (s t : State) (h : step s = .next t) :
    t.sent = s.sent ∨ (s.phase = .tx ∧ SentFromQueue s t) := by
  rcases step_cases s t h with ⟨_, rfl⟩ | ⟨_, _, more, i, _, _, he⟩ | ⟨_, hb, he⟩
  · exact .inl rfl
  · exact exec_sent i { tick s with bench := more } t he
  · exact engineStep_sent (tick s) t hb he

end Sys2Proof.Machine

namespace Sys2Proof
open Machine

/-- Settles O53: what a step sends is a prefix of `TXQ`, and an empty one leaves the sent bytes unchanged. -/
theorem sendsOnlyFromQueue : Obligations.SendsOnlyFromQueue := by
  intro s t h
  rcases step_sent s t h with hsame | ⟨hp, out, hpre, hsent, hrest⟩
  · exact .inl hsame
  · by_cases hout : out = []
    · exact .inl (by simpa [hout] using hsent)
    · exact .inr ⟨hp, out, hpre, hout, hsent, hrest⟩

end Sys2Proof
end

