-- ==== Sys2Proof/Proofs/DecoderRules.lean ====
section
/-! PROOFS. What each part of the decoder answers: the command channel, the escape pairs, the frame images, the primitives
called by name; and that each answer is encoded by what it was read from. -/

namespace Sys2Proof
open Machine

/-! ### The command channel -/

theorem opCode_opOfCode (c : BitVec 2) : opCode (opOfCode c) = c := by revert c; decide
theorem nsCode_nsOfCode (c : BitVec 2) : nsCode (nsOfCode c) = c := by revert c; decide

/-- The operation that an instruction of the command channel offers, with its operands (R90). -/
def offering (ns : Namespace) (addr : Byte) (value : Int) : Op → Instr
  | .connect => .connect ns addr value
  | .version => .version ns addr value
  | .read => .read ns addr value
  | .write => .write ns addr value

theorem decodeCommand_eq_offering (c : Command) :
    decodeCommand c = offering (nsOfCode c.ns) c.addr c.value (opOfCode c.op) := by
  unfold decodeCommand
  cases opOfCode c.op <;> rfl

theorem encode_offering (op : Op) (ns : Namespace) (addr : Byte) (value : Int) :
    encode (offering ns addr value op) = .command ⟨opCode op, nsCode ns, addr, value⟩ := by
  cases op <;> rfl

/-- Every item of the command channel decodes: no code of an operation or a namespace is illegal (R82, R90). -/
theorem decode_command (expect op : Op) (ns : Namespace) (addr : Byte) (value : Int) :
    decode expect (.command ⟨opCode op, nsCode ns, addr, value⟩) = .ok (offering ns addr value op) := by
  simp only [decode, decodeCommand_eq_offering, opOfCode_opCode, nsOfCode_nsCode]

theorem encode_decodeCommand (c : Command) : encode (decodeCommand c) = .command c := by
  rw [decodeCommand_eq_offering, encode_offering, opCode_opOfCode, nsCode_nsOfCode]

/-! ### Escape pairs and primitives -/

/-- Exactly the three pairs of R85 decode. -/
theorem decodePair_ok (m l : Byte) (i : Instr) (h : decodePair m l = .ok i) :
    m = ESC ∧ (l = ESC ∧ i = .escC3 ∨ l = TAIL ∧ i = .esc3C ∨ l = HEADB ∧ i = .esc55) := by
  unfold decodePair at h
  split_ifs at h with hm hc3 h3c h55
  · cases h; exact ⟨of_not_not hm, .inl ⟨hc3, rfl⟩⟩
  · cases h; exact ⟨of_not_not hm, .inr (.inl ⟨h3c, rfl⟩)⟩
  · cases h; exact ⟨of_not_not hm, .inr (.inr ⟨h55, rfl⟩)⟩

theorem encode_decodeUnit (u : UnitCall) : encode (decodeUnit u) = .unit u := by cases u <;> rfl

/-! ### Frame images -/

theorem wellFormed_iff (i : Instr) : i.wellFormed = true ↔ i.defect = none := by
  simp [Instr.wellFormed]

/-- A frame decodes exactly if it ends with the tail and obeys its row. -/
theorem framed_ok_iff (t : Byte) (i j : Instr) :
    framed t i = .ok j ↔ t = TAIL ∧ i = j ∧ i.wellFormed = true := by
  rw [wellFormed_iff]
  by_cases ht : t = TAIL
  · cases hd : i.defect with
    | none => simp [framed, ht, hd]
    | some e => simp [framed, ht, hd]
  · simp [framed, ht]

theorem framed_tail (i : Instr) (h : i.wellFormed = true) : framed TAIL i = .ok i :=
  (framed_ok_iff TAIL i i).mpr ⟨rfl, rfl, h⟩

/-- VERSION and CONNECT take any command byte and any payload (R78): the last two bytes are the checksum and the tail. -/
theorem decodeResponse_rspV (op : Op) (ho : op = .connect ∨ op = .version) (c k t : Byte) (p : Bytes) :
    decodeResponse op c (p ++ [k, t]) = framed t (.rspV c p k) := by
  rcases ho with rfl | rfl <;> simp [decodeResponse]

theorem encode_rspV (c k : Byte) (p : Bytes) :
    encode (.rspV c p k) = .image (0x55 :: 0x55 :: 0xFF :: c :: (p ++ [k, 0x3C])) := by
  simp [encode]

theorem readUnder_rspV_iff (op : Op) (c k : Byte) (p : Bytes) :
    (Instr.rspV c p k).readUnder op = true ↔ op = .connect ∨ op = .version := by
  simp [Instr.readUnder]

theorem readUnder_rspR_iff (op : Op) (l h k : Byte) : (Instr.rspR l h k).readUnder op = true ↔ op = .read := by
  simp [Instr.readUnder]

theorem readUnder_rspW_iff (op : Op) (n a l h k : Byte) :
    (Instr.rspW n a l h k).readUnder op = true ↔ op = .write := by
  simp [Instr.readUnder]

/-- What is read under an operation from an item: it obeys its row, the operation expects it, and it is encoded by that very
item. -/
def ReadFrom (op : Op) (it : Item) (i : Instr) : Prop :=
  i.wellFormed = true ∧ i.readUnder op = true ∧ encode i = it

/-- A request image has the form of its command (R75, R76, R77). -/
theorem decodeRequest_readFrom (op : Op) (c : Byte) (rest : Bytes) (i : Instr) (h : decodeRequest c rest = .ok i) :
    ReadFrom op (.image (0x55 :: 0x55 :: 0x00 :: c :: rest)) i := by
  unfold decodeRequest at h
  split_ifs at h with hv hr hwr
  · split at h
    next k t =>
      split_ifs at h with hk
      obtain ⟨rfl, rfl, hw⟩ := (framed_ok_iff _ _ _).mp h
      exact ⟨hw, rfl, by rw [hv, hk]; rfl⟩
    next => cases h
  · split at h
    next n a k t =>
      obtain ⟨rfl, rfl, hw⟩ := (framed_ok_iff _ _ _).mp h
      exact ⟨hw, rfl, by rw [hr]; rfl⟩
    next => cases h
  · split at h
    next n a l hi k t =>
      obtain ⟨rfl, rfl, hw⟩ := (framed_ok_iff _ _ _).mp h
      exact ⟨hw, rfl, by rw [hwr]; rfl⟩
    next => cases h

/-- Under VERSION and CONNECT a response image has a checksum and a tail behind any payload (R78). -/
theorem decodeResponse_version_readFrom (op : Op) (ho : op = .connect ∨ op = .version) (c : Byte) (rest : Bytes)
    (i : Instr) (h : decodeResponse op c rest = .ok i) :
    ReadFrom op (.image (0x55 :: 0x55 :: 0xFF :: c :: rest)) i := by
  match hr : rest.reverse with
  | [] => rcases ho with rfl | rfl <;> simp [decodeResponse, hr] at h
  | [_] => rcases ho with rfl | rfl <;> simp [decodeResponse, hr] at h
  | t :: k :: p =>
    have hrest : rest = p.reverse ++ [k, t] := by rw [← List.reverse_reverse rest, hr]; simp
    rw [hrest, decodeResponse_rspV op ho] at h
    obtain ⟨rfl, rfl, hw⟩ := (framed_ok_iff _ _ _).mp h
    exact ⟨hw, (readUnder_rspV_iff op c k p.reverse).mpr ho, by rw [encode_rspV, hrest]; rfl⟩

/-- A response image has the form that the operation in progress expects (R78, R79, R80, R94). -/
theorem decodeResponse_readFrom (op : Op) (c : Byte) (rest : Bytes) (i : Instr) (h : decodeResponse op c rest = .ok i) :
    ReadFrom op (.image (0x55 :: 0x55 :: 0xFF :: c :: rest)) i := by
  cases op with
  | connect => exact decodeResponse_version_readFrom _ (.inl rfl) c rest i h
  | version => exact decodeResponse_version_readFrom _ (.inr rfl) c rest i h
  | read =>
    simp only [decodeResponse] at h
    split_ifs at h with hc
    split at h
    next l hi k t =>
      obtain ⟨rfl, rfl, hw⟩ := (framed_ok_iff _ _ _).mp h
      exact ⟨hw, rfl, by rw [of_not_not hc]; rfl⟩
    next => cases h
  | write =>
    simp only [decodeResponse] at h
    split_ifs at h with hc
    split at h
    next n a l hi k t =>
      obtain ⟨rfl, rfl, hw⟩ := (framed_ok_iff _ _ _).mp h
      exact ⟨hw, rfl, by rw [of_not_not hc]; rfl⟩
    next => cases h

/-- An image that decodes begins with the head, and its sender byte says whether it is a request or a response (R70, R71). -/
theorem decodeImage_readFrom (op : Op) (f : Bytes) (i : Instr) (h : decodeImage op f = .ok i) :
    ReadFrom op (.image f) i := by
  unfold decodeImage at h
  split at h
  next h0 h1 sender c rest =>
    split_ifs at h with hhead hhost hdev
    · obtain ⟨rfl, rfl⟩ : h0 = HEADB ∧ h1 = HEADB := by simpa using hhead
      rw [hhost]; exact decodeRequest_readFrom op c rest i h
    · obtain ⟨rfl, rfl⟩ : h0 = HEADB ∧ h1 = HEADB := by simpa using hhead
      rw [hdev]; exact decodeResponse_readFrom op c rest i h
  next => cases h

end Sys2Proof
end

