-- ==== Sys2Proof/Proofs/Encodings.lean ====
section
/-! PROOFS. The statements of 30_encoding.md about the decoder and the encoder. -/

namespace Sys2Proof
open Machine

/-- Settles O1: each row's item, a response under the operation that expects it. -/
theorem decodeEncodeRoundTrip : Obligations.DecodeEncodeRoundTrip := by
  intro i op hw hu
  cases i with
  | connect ns addr value => exact decode_command op .connect ns addr value
  | version ns addr value => exact decode_command op .version ns addr value
  | read ns addr value => exact decode_command op .read ns addr value
  | write ns addr value => exact decode_command op .write ns addr value
  | reqV => exact framed_tail _ hw
  | reqR n a k => exact framed_tail _ hw
  | reqW n a l h k => exact framed_tail _ hw
  | rspV c p k =>
    have ho : op = .connect ∨ op = .version := (readUnder_rspV_iff op c k p).mp hu
    calc decode op (encode (.rspV c p k))
      _ = decodeResponse op c (p ++ [k, TAIL]) := by rw [encode_rspV]; rfl
      _ = framed TAIL (.rspV c p k) := decodeResponse_rspV op ho c k TAIL p
      _ = .ok (.rspV c p k) := framed_tail _ hw
  | rspR l h k =>
    obtain rfl : op = .read := (readUnder_rspR_iff op l h k).mp hu
    exact framed_tail _ hw
  | rspW n a l h k =>
    obtain rfl : op = .write := (readUnder_rspW_iff op n a l h k).mp hu
    exact framed_tail _ hw
  | _ => rfl

/-- Settles O2: each of the five kinds of items. -/
theorem decodedItemIsTheEncoding : Obligations.DecodedItemIsTheEncoding := by
  intro op it i h
  cases it with
  | command c =>
    cases h
    refine ⟨?_, ?_, encode_decodeCommand c⟩ <;> rw [decodeCommand_eq_offering] <;> cases opOfCode c.op <;> rfl
  | received b => cases h; exact ⟨rfl, rfl, rfl⟩
  | pair m l =>
    obtain ⟨rfl, ⟨rfl, rfl⟩ | ⟨rfl, rfl⟩ | ⟨rfl, rfl⟩⟩ := decodePair_ok m l i h
    · exact ⟨rfl, rfl, rfl⟩
    · exact ⟨rfl, rfl, rfl⟩
    · exact ⟨rfl, rfl, rfl⟩
  | image f => exact decodeImage_readFrom op f i h
  | unit u =>
    cases h
    refine ⟨?_, ?_, encode_decodeUnit u⟩ <;> cases u <;> rfl

/-- Settles O3: the numbers of R75, R76, R79, R85 and R90, each a closed computation of the decoder. -/
theorem specWordsDecode : Obligations.SpecWordsDecode :=
  ⟨by decide, by decide, by decide, by decide, by decide, by decide, by decide⟩

/-- A number of the table names an instruction exactly if the decoder reads it from the number's item. -/
theorem decodeTableWord_iff (nbits w : Nat) (i : Instr) :
    decodeTableWord nbits w = some i ↔ decode (tableExpect (tableItem nbits w)) (tableItem nbits w) = .ok i := by
  unfold decodeTableWord
  cases decode (tableExpect (tableItem nbits w)) (tableItem nbits w) <;> simp [Except.toOption]

/-- Settles O43: the placed item is alone on the bench port, and decodes there as the table's number does. -/
theorem placedWordRunsNext : Obligations.PlacedWordRunsNext := by
  intro s nbits w i h
  have hd : decode (wordExpect (tableItem nbits w) s) (tableItem nbits w) = .ok i :=
    (decode_wordExpect _ s).trans ((decodeTableWord_iff nbits w i).mp h)
  exact step_of_fetch (s.withFetchWord nbits w) _ (tableItem nbits w) i rfl
    (fetch_of_bench (tick (s.withFetchWord nbits w)) _ [] rfl) hd

/-! ### Operands on the wire -/

theorem valLo_toNat (v : ConfigValue) : (valLo v).toNat = v.toNat % 256 := by simp [valLo]

theorem valHi_toNat (v : ConfigValue) : (valHi v).toNat = v.toNat / 256 := by
  have hv := v.isLt
  rw [valHi, BitVec.extractLsb'_toNat, Nat.shiftRight_eq_div_pow]
  omega

/-- R81: no sign extension, and no carry out of 16 bits. -/
theorem joinValue_toNat (lo hi : Byte) : (joinValue lo hi).toNat = lo.toNat + 256 * hi.toNat := by
  have hl := lo.isLt
  have hh := hi.isLt
  rw [joinValue, BitVec.toNat_ofNat]
  omega

theorem nsByte_nsOfCode (c : BitVec 2) : nsByte (nsOfCode c) = if c = 3 then 0xFF else c.zeroExtend 8 := by
  rw [nsByte, nsCode_nsOfCode]

/-- Settles O17. -/
theorem operandsOnTheWire : Obligations.OperandsOnTheWire :=
  ⟨fun v => ⟨valLo_toNat v, valHi_toNat v, (joinValue_eq_iff _ _ v).mpr ⟨rfl, rfl⟩⟩, joinValue_toNat,
    fun _ _ _ => rfl, fun c => ⟨nsCode_nsOfCode c, nsByte_nsOfCode c⟩, by decide, by decide, by decide, by decide,
    by decide⟩

end Sys2Proof
end

