-- ==== Sys2Proof/Proofs/FrameRules.lean ====
section
/-! PROOFS. What bytes that arrive in `Rx` do, a stream that completes no frame and a whole frame image; what a request frame
run by itself does; which operands the accept step uses. -/

namespace Sys2Proof.Machine

/-! ### Unescaping a frame -/

/-- The deframer takes the escaped form of a byte in `Accumulating` for the byte itself (R85, R103). -/
theorem collectUntil_quote1 (b : Byte) (buf rest : Bytes) :
    collectUntil .accumulating buf (quote1 b ++ rest) = collectUntil .accumulating (buf ++ [b]) rest := by
  rcases quote1_cases b with ⟨_, hq⟩ | ⟨hr, hq⟩
  · rw [hq]
    exact (collectUntil_esc buf (b :: rest)).trans (collectUntil_literal b buf rest)
  · have hne : ¬ (b = ESC ∨ b = TAIL ∨ b = HEADB) := fun h => by simp [(reserved_iff b).mpr h] at hr
    rw [hq]
    exact collectUntil_plain b buf rest (fun h => hne (.inl h)) (fun h => hne (.inr (.inl h)))

theorem collectUntil_quote (e : Bytes) : ∀ buf rest : Bytes,
    collectUntil .accumulating buf (quote e ++ rest) = collectUntil .accumulating (buf ++ e) rest := by
  induction e with
  | nil => intro buf rest; simp [quote]
  | cons b e ih => intro buf rest; rw [quote_cons, List.append_assoc, collectUntil_quote1, ih]; simp

/-- A wire form completes at its last byte, with its image collected (R71, R74). -/
theorem collectUntil_wireForm (e : Bytes) :
    collectUntil .accumulating [] (wireForm e) = (.accumulating, HEAD ++ e ++ [TAIL], some []) := by
  have hhead (s : Bytes) : collectUntil .accumulating [] (HEAD ++ s) = collectUntil .accumulating HEAD s := rfl
  rw [wireForm, List.append_assoc, hhead, collectUntil_quote]
  exact collectUntil_tail (HEAD ++ e) []

/-! ### Bytes received with nothing else in the transport -/

/-- The transfers that take a whole stream without completing a frame. -/
theorem takeMany_collects (bs : Bytes) : ∀ (s : State) (st : RxState) (buf : Bytes),
    s.phase = .rx → s.rx = bs.map .byte → collectUntil s.rxst s.rxbuf bs = (st, buf, none) →
    ∃ ck n, takeMany bs.length s = { s with rx := [], rxst := st, rxbuf := buf, ck := ck, free := n } := by
  induction bs with
  | nil =>
    intro s st buf _ hx h
    cases h
    exact ⟨s.ck, s.free, by cases s; simp_all [takeMany]⟩
  | cons b bs ih =>
    intro s st buf hp hx h
    rcases hc : collect s.rxst s.rxbuf b with ⟨st1, buf1, done⟩
    rw [collectUntil, hc] at h
    cases done with
    | true => simp at h
    | false =>
      have h1 : takeOne s = scratchCk { s with rx := bs.map .byte, rxst := st1, rxbuf := buf1 } := by
        simp only [takeOne, hx, List.map_cons]
        exact receiveByte_collects b _ st1 buf1 hc
      obtain ⟨ck, n, e⟩ := ih (takeOne s) st buf (by simp [h1, hp]) (by simp [h1]) (by simpa [h1] using h)
      refine ⟨ck, n, ?_⟩
      rw [List.length_cons, takeMany, if_pos hp, e, h1]
      rfl

/-- Bytes that complete no frame are collected (R152). -/
theorem receiveBytes_collects (bs : Bytes) (s : State) (st : RxState) (buf : Bytes) (hp : s.phase = .rx)
    (hx : s.rx = []) (h : collectUntil s.rxst s.rxbuf bs = (st, buf, none)) :
    ∃ ck n, receiveBytes bs s = { s with rxst := st, rxbuf := buf, ck := ck, free := n } := by
  obtain ⟨ck, n, e⟩ := takeMany_collects bs (arrive bs s) st buf hp (by simp [arrive, hx]) h
  refine ⟨ck, n, e.trans ?_⟩
  rw [← hx]; rfl

/-- Bytes of which the last completes a frame are collected and the frame is evaluated (R152). -/
theorem receiveBytes_completes (bs : Bytes) (s : State) (st : RxState) (buf : Bytes) (hp : s.phase = .rx)
    (hx : s.rx = []) (h : collectUntil s.rxst s.rxbuf bs = (st, buf, some [])) :
    ∃ ck n, receiveBytes bs s = evaluate { s with rxst := st, rxbuf := buf, ck := ck, free := n } := by
  obtain ⟨ck, n, e⟩ := takeMany_completes bs (arrive bs s) [] st buf [] hp (by simp [arrive, hx]) h
  refine ⟨ck, n, e.trans ?_⟩
  rw [← hx]; rfl

/-- Ready for the first byte of a frame, with nothing in the transport (R137). -/
structure Fresh (s : State) : Prop where
  phase : s.phase = .rx
  rxst : s.rxst = .accumulating
  rxbuf : s.rxbuf = []
  rx : s.rx = []

/-- A response frame received afresh leaves its image in the buffer and is evaluated, whatever its checksum byte. -/
theorem receiveBytes_wireForm (e : Bytes) (s : State) (h : Fresh s) :
    ∃ ck n, receiveBytes (wireForm e) s =
      evaluate { s with rxbuf := HEAD ++ e ++ [TAIL], ck := ck, free := n } := by
  have hc : collectUntil s.rxst s.rxbuf (wireForm e) = (s.rxst, HEAD ++ e ++ [TAIL], some []) := by
    rw [h.rxst, h.rxbuf, collectUntil_wireForm]
  exact receiveBytes_completes _ s _ _ h.phase h.rx hc

/-- Outside CONNECT a response frame received afresh ends the reception with the report of its image, and the connection
stays (R197, R234). -/
theorem receiveBytes_wireForm_of_ne_connect (e : Bytes) (s : State) (h : Fresh s) (op : Op) (hop : s.reqOp = op)
    (hne : op ≠ .connect) (r : Status × Option ConfigValue × Option Bytes)
    (hr : report op s.reqNs s.reqAddr s.reqVal (HEAD ++ e ++ [TAIL]) = r) :
    ∃ ck n, receiveBytes (wireForm e) s = { s with
      rxbuf := HEAD ++ e ++ [TAIL], phase := .res, resStatus := statusCode r.1, resValue := r.2.1,
      resData := r.2.2, ck := ck, free := n } := by
  obtain ⟨ck, n, he⟩ := receiveBytes_wireForm e s h
  refine ⟨ck, n, ?_⟩
  subst hop hr
  rw [he, evaluate_reports, if_neg hne, if_neg hne]

/-- In CONNECT that report decides the connection too (R232, R233). -/
theorem receiveBytes_wireForm_of_connect (e : Bytes) (s : State) (h : Fresh s) (hop : s.reqOp = .connect)
    (r : Status × Option ConfigValue × Option Bytes)
    (hr : report .connect s.reqNs s.reqAddr s.reqVal (HEAD ++ e ++ [TAIL]) = r) :
    ∃ ck n, receiveBytes (wireForm e) s = { s with
      rxbuf := HEAD ++ e ++ [TAIL], phase := .res, resStatus := statusCode r.1, resValue := r.2.1,
      resData := r.2.2, connected := r.1 == .ok, verCache := r.2.2.getD [], ck := ck, free := n } := by
  obtain ⟨ck, n, he⟩ := receiveBytes_wireForm e s h
  refine ⟨ck, n, ?_⟩
  rw [he, evaluate_reports, if_pos hop, if_pos hop, ← hr, hop]

@[simp] theorem evaluate_rxbuf (s : State) : (evaluate s).rxbuf = s.rxbuf := by rw [evaluate_reports]

/-- In `Accumulating` an escape pair is the byte it stands for, the tail's pair included (R85, R106). -/
theorem receiveBytes_escapePair (b : Byte) (hr : reserved b = true) (s : State) (hp : s.phase = .rx)
    (hx : s.rx = []) (hst : s.rxst = .accumulating) :
    ∃ ck n, receiveBytes [ESC, b] s = { s with rxbuf := s.rxbuf ++ [b], ck := ck, free := n } := by
  have hq : quote1 b = [ESC, b] := if_pos hr
  have hc : collectUntil s.rxst s.rxbuf [ESC, b] = (s.rxst, s.rxbuf ++ [b], none) := by
    rw [hst, ← hq, ← List.append_nil (quote1 b), collectUntil_quote1, collectUntil_nil]
  exact receiveBytes_collects _ s s.rxst _ hp hx hc

/-! ### Request frames -/

theorem exec_reqV (s : State) : exec .reqV s = transmitFrame [0x55, 0x55, 0x00, 0x01, 0x01, 0x3C] s := rfl

theorem exec_reqR (n a k : Byte) (s : State) :
    exec (.reqR n a k) s = transmitFrame ([0x55, 0x55] ++ quote [0x00, 0x03, n, a, k] ++ [0x3C]) s := rfl

theorem exec_reqW (n a l h k : Byte) (s : State) :
    exec (.reqW n a l h k) s = transmitFrame ([0x55, 0x55] ++ quote [0x00, 0x04, n, a, l, h, k] ++ [0x3C]) s := rfl

/-- The frame that the engine is sending goes out whole if the transport accepts every byte (R136, R137). -/
theorem transmitFrame_all (wire : Bytes) (s : State) (more : List TxAnswer) (hne : wire ≠ []) (hp : s.phase = .tx)
    (hq : s.txq = wire) (ha : s.txAnswers = List.replicate wire.length .ok ++ more) :
    ∃ ck n, transmitFrame wire s = .next { s with
      sent := s.sent ++ wire, txq := [], txAnswers := more, phase := .rx, rxst := .accumulating, rxbuf := [],
      ck := ck, free := n } := by
  rw [transmitFrame, if_pos ⟨hp, hq⟩]
  exact transmitMany_all wire s more hne hp hq ha

/-- The engine sends no other frame (R139). -/
theorem transmitFrame_other (wire : Bytes) (s : State) (h : ¬ (s.phase = .tx ∧ s.txq = wire)) :
    transmitFrame wire s = .next s := if_neg h

/-! ### The accept step -/

/-- R84: READ ignores `value`. -/
theorem offer_read_value (ns : Namespace) (addr : Byte) (value value' : Int) (s : State) (hp : s.phase = .idle) :
    offer .read ns addr value s = offer .read ns addr value' s := by
  simp [offer, hp, accept, refusal, latch]

/-- CONNECT and VERSION pass the checks in every state (R182). -/
theorem offer_ungated (op : Op) (ho : op = .connect ∨ op = .version) (ns : Namespace) (addr : Byte) (value : Int)
    (s : State) (hp : s.phase = .idle) : offer op ns addr value s = latch op ns addr value s := by
  rcases ho with rfl | rfl <;> simp [offer, hp, accept, refusal]

/-- R84: CONNECT and VERSION send the same frame whatever their operands, which reach only the request latch. -/
theorem latch_ungated_operands (op : Op) (ho : op = .connect ∨ op = .version) (ns ns' : Namespace) (addr addr' : Byte)
    (value value' : Int) (s : State) :
    latch op ns' addr' value' s = { latch op ns addr value s with reqNs := ns', reqAddr := addr' } := by
  rcases ho with rfl | rfl <;> rfl

end Sys2Proof.Machine
end

