-- ==== Sys2Proof/Proofs/EncodingRows.lean ====
section
/-! PROOFS. The statements of 30_encoding.md about the rows run by themselves: request frames, response frames, escape pairs,
operands. -/

namespace Sys2Proof
open Machine

/-- Settles O29: each row is the transmission of its wire form. -/
theorem requestFramesGoOut : Obligations.RequestFramesGoOut := by
  intro s more i wire hrow
  obtain ⟨he, hne⟩ : exec i s = transmitFrame wire s ∧ wire ≠ [] := by
    rcases hrow with ⟨rfl, rfl⟩ | ⟨n, a, k, rfl, rfl⟩ | ⟨n, a, l, h, k, rfl, rfl⟩
    · exact ⟨exec_reqV s, by simp⟩
    · exact ⟨exec_reqR n a k s, by simp⟩
    · exact ⟨exec_reqW n a l h k s, by simp⟩
  rw [he]
  exact ⟨transmitFrame_all wire s more hne, transmitFrame_other wire s⟩

/-! ### Response frames -/

/-- The checksum of a READ response, as R79 sums it. -/
theorem cksum_rspR (l h : Byte) : cksum ([0xFF, 0x03] ++ [l, h]) = 0x02 + l + h := by
  simp only [List.cons_append, List.nil_append, cksum_cons, cksum_nil]
  bv_omega

/-- The checksum of a WRITE response, as R80 sums it. -/
theorem cksum_rspW (n a l h : Byte) : cksum ([0xFF, 0x04] ++ [n, a, l, h]) = 0x03 + n + a + l + h := by
  simp only [List.cons_append, List.nil_append, cksum_cons, cksum_nil]
  bv_omega

/-- The report of a READ response in READ. -/
theorem report_rspR (ns : Namespace) (addr : Byte) (v : ConfigValue) (l h k : Byte) :
    report .read ns addr v [0x55, 0x55, 0xFF, 0x03, l, h, k, 0x3C] =
      (if k = 0x02 + l + h then .ok else .checksumError, if k = 0x02 + l + h then some (joinValue l h) else none,
        none) := by
  refine (report_parts .read ns addr v 0xFF 0x03 k 0x3C [l, h]).trans ?_
  rw [cksum_rspR]
  by_cases hk : k = 0x02 + l + h
  · rw [if_neg (not_not.mpr hk), if_pos hk, if_pos hk]; rfl
  · rw [if_pos hk, if_neg hk, if_neg hk]

/-- The report of a WRITE response in WRITE, the comparisons in their order (R213 to R215). -/
theorem report_rspW (ns : Namespace) (addr : Byte) (v : ConfigValue) (n a l h k : Byte) :
    report .write ns addr v [0x55, 0x55, 0xFF, 0x04, n, a, l, h, k, 0x3C] =
      (if k ≠ 0x03 + n + a + l + h then .checksumError
        else if n ≠ nsByte ns ∨ a ≠ addr then .addressMismatchError
        else if l ≠ valLo v ∨ h ≠ valHi v then .writeVerificationError else .ok, none, none) := by
  have hv : joinValue l h ≠ v ↔ l ≠ valLo v ∨ h ≠ valHi v := by
    rw [Ne, joinValue_eq_iff, not_and_or]
  calc report .write ns addr v [0x55, 0x55, 0xFF, 0x04, n, a, l, h, k, 0x3C]
    _ = if k ≠ 0x03 + n + a + l + h then (.checksumError, none, none)
        else if n ≠ nsByte ns ∨ a ≠ addr then (.addressMismatchError, none, none)
        else if joinValue l h ≠ v then (.writeVerificationError, none, none) else (.ok, none, none) := by
      rw [← cksum_rspW]
      exact report_parts .write ns addr v 0xFF 0x04 k 0x3C [n, a, l, h]
    _ = _ := by simp only [hv]; split_ifs <;> rfl

/-- The report of a version response with a good checksum in VERSION. -/
theorem report_rspV_version (ns : Namespace) (addr : Byte) (v : ConfigValue) (c k : Byte) (p : Bytes)
    (hk : k = cksum ([0xFF, c] ++ p)) :
    report .version ns addr v ([0x55, 0x55, 0xFF, c] ++ p ++ [k, 0x3C]) = (.ok, none, some p) := by
  rw [report_parts, if_neg (not_not.mpr hk)]
  rfl

/-- The report of a version response with a good checksum in CONNECT (R231). -/
theorem report_rspV_connect (ns : Namespace) (addr : Byte) (v : ConfigValue) (c k : Byte) (p : Bytes)
    (hk : k = cksum ([0xFF, c] ++ p)) :
    report .connect ns addr v ([0x55, 0x55, 0xFF, c] ++ p ++ [k, 0x3C]) =
      if p = Config.fwId then (.ok, none, some p) else (.incompatibilityError, none, none) := by
  rw [report_parts, if_neg (not_not.mpr hk)]
  rfl

/-- The image of a version response, head and tail about its escaped region. -/
theorem image_rspV (c k : Byte) (p : Bytes) :
    HEAD ++ ([DEV_ID, c] ++ p ++ [k]) ++ [TAIL] = [0x55, 0x55, 0xFF, c] ++ p ++ [k, 0x3C] := by simp

/-- Settles O35: the report of the image, with its status numbered. -/
theorem readResponseGivesValue : Obligations.ReadResponseGivesValue := by
  intro s l h k hp hst hb hx ho
  obtain ⟨ck, n, e⟩ := receiveBytes_wireForm_of_ne_connect [DEV_ID, CMD_READ, l, h, k] s ⟨hp, hst, hb, hx⟩
    .read ho (by simp) _ (report_rspR s.reqNs s.reqAddr s.reqVal l h k)
  refine ⟨ck, n, ?_⟩
  rw [exec_rspR, e, apply_ite statusCode]
  rfl

/-- Settles O37: the report of the image, with its status numbered. -/
theorem writeResponseIsCompared : Obligations.WriteResponseIsCompared := by
  intro s n a l h k hp hst hb hx ho
  obtain ⟨ck, m, e⟩ := receiveBytes_wireForm_of_ne_connect [DEV_ID, CMD_WRITE, n, a, l, h, k] s ⟨hp, hst, hb, hx⟩
    .write ho (by simp) _ (report_rspW s.reqNs s.reqAddr s.reqVal n a l h k)
  refine ⟨ck, m, ?_⟩
  rw [exec_rspW, e, apply_ite statusCode, apply_ite statusCode, apply_ite statusCode]
  rfl

/-- Settles O36: the identifier is looked at in CONNECT alone. -/
theorem versionResponseReturnsPayload : Obligations.VersionResponseReturnsPayload := by
  intro s c k p hp hst hb hx hk
  have hfresh : Fresh s := ⟨hp, hst, hb, hx⟩
  have hver := report_rspV_version s.reqNs s.reqAddr s.reqVal c k p hk
  have hcon := report_rspV_connect s.reqNs s.reqAddr s.reqVal c k p hk
  rw [← image_rspV] at hver hcon ⊢
  refine ⟨fun ho => ?_, fun ho hid => ?_, fun ho hid => ?_⟩
  · obtain ⟨ck, n, e⟩ := receiveBytes_wireForm_of_ne_connect _ s hfresh .version ho (by simp) _ hver
    exact ⟨ck, n, congrArg _ e⟩
  · obtain ⟨ck, n, e⟩ := receiveBytes_wireForm_of_connect _ s hfresh ho _ (hcon.trans (if_pos hid))
    exact ⟨ck, n, congrArg _ e⟩
  · obtain ⟨ck, n, e⟩ := receiveBytes_wireForm_of_connect _ s hfresh ho _ (hcon.trans (if_neg hid))
    exact ⟨ck, n, congrArg _ e⟩

/-! ### Escape pairs -/

/-- Settles O33: a pair is one escaped byte in `Accumulating`; in `Escaped` its marker is the byte that was escaped, and what
follows stands by itself. -/
theorem escapePairsReceived : Obligations.EscapePairsReceived := by
  intro s hp hx
  refine ⟨fun hst => ?_, fun hst => ?_⟩
  · obtain ⟨ck, n, e⟩ := receiveBytes_escapePair ESC rfl s hp hx hst
    obtain ⟨ck', n', e'⟩ := receiveBytes_escapePair TAIL rfl s hp hx hst
    obtain ⟨ck'', n'', e''⟩ := receiveBytes_escapePair HEADB rfl s hp hx hst
    exact ⟨⟨ck, n, congrArg _ e⟩, ⟨ck', n', congrArg _ e'⟩, ⟨ck'', n'', congrArg _ e''⟩⟩
  · have hmarker (b : Byte) : collectUntil s.rxst s.rxbuf [ESC, b] =
        collectUntil .accumulating (s.rxbuf ++ [ESC]) [b] := by
      rw [hst]; exact collectUntil_literal ESC s.rxbuf [b]
    obtain ⟨ck, n, e⟩ := receiveBytes_collects [ESC, ESC] s .escaped (s.rxbuf ++ [ESC]) hp hx (hmarker ESC)
    obtain ⟨ck', n', e'⟩ := receiveBytes_completes [ESC, TAIL] s .accumulating (s.rxbuf ++ [ESC, TAIL]) hp hx
      (by rw [hmarker, collectUntil_tail, List.append_assoc]; rfl)
    obtain ⟨ck'', n'', e''⟩ := receiveBytes_collects [ESC, HEADB] s .accumulating (s.rxbuf ++ [ESC, HEADB]) hp hx
      (by rw [hmarker, collectUntil_plain HEADB _ _ (by decide) (by decide), List.append_assoc]; rfl)
    refine ⟨⟨ck, n, congrArg _ e⟩, ⟨_, congrArg Host.Outcome.next e', ?_⟩, ⟨ck'', n'', congrArg _ e''⟩⟩
    exact ⟨evaluate_phase _, evaluate_rxbuf _, (evaluate_rx _).trans hx, evaluate_sent _⟩

/-! ### Operands -/

/-- Settles O26: of the operands READ uses two, CONNECT and VERSION none. -/
theorem unusedOperandsIgnored : Obligations.UnusedOperandsIgnored := by
  intro s ns ns' addr addr' value value' hp
  have hungated (op : Op) (ho : op = .connect ∨ op = .version) :
      offer op ns' addr' value' s = { offer op ns addr value s with reqNs := ns', reqAddr := addr' } := by
    rw [offer_ungated op ho _ _ _ s hp, offer_ungated op ho _ _ _ s hp]
    exact latch_ungated_operands op ho ns ns' addr addr' value value' s
  refine ⟨?_, ⟨_, exec_connect ns addr value s, ?_⟩, ⟨_, exec_version ns addr value s, ?_⟩⟩
  · rw [exec_read, exec_read, offer_read_value ns addr value value' s hp]
  · exact congrArg _ (hungated .connect (.inl rfl))
  · exact congrArg _ (hungated .version (.inr rfl))

end Sys2Proof
end

