-- ==== Sys2Proof/Proofs/EscaperRules.lean ====
section
/-! PROOFS. The escaper's functions: escaping as a map over the bytes, unescaping one escaped byte, the single-byte
replacements of R102, and the instructions QUOTE, UNQUOTE, CKSUM and ENCODE. -/

namespace Sys2Proof.Machine

/-! ### Escaping -/

theorem not_reserved_iff (b : Byte) : reserved b = false ↔ b ≠ ESC ∧ b ≠ TAIL ∧ b ≠ HEADB := by
  rw [← Bool.not_eq_true, reserved_iff, not_or, not_or]

theorem length_quote1 (b : Byte) : (quote1 b).length = 1 + if reserved b then 1 else 0 := by
  rcases quote1_cases b with ⟨hr, hq⟩ | ⟨hr, hq⟩ <;> simp [hr, hq]

theorem quote_eq_flatMap (s : Bytes) : quote s = s.flatMap quote1 := by
  induction s with
  | nil => rfl
  | cons b s ih => rw [quote_cons, ih, List.flatMap_cons]

/-- R101, with the reserved values written out. -/
theorem quote1_eq_ite (b : Byte) : quote1 b = if b = 0xC3 ∨ b = 0x3C ∨ b = 0x55 then [0xC3, b] else [b] :=
  if_congr (reserved_iff b) rfl rfl

/-- R104. -/
theorem length_quote (s : Bytes) : (quote s).length = s.length + s.countP reserved := by
  induction s with
  | nil => rfl
  | cons b s ih =>
    rw [quote_cons, List.length_append, length_quote1, ih, List.length_cons, List.countP_cons]
    omega

/-! ### Unescaping -/

theorem unquoteStep_escaped (b : Byte) : unquoteStep .escaped b = (.accumulating, some (b, true)) := rfl

theorem unquoteStep_esc : unquoteStep .accumulating ESC = (.escaped, none) := rfl

theorem unquoteStep_plain (b : Byte) (h : b ≠ ESC) :
    unquoteStep .accumulating b = (.accumulating, some (b, false)) := if_neg h

/-- The escaped form of a byte unescapes to the byte, marked exactly if it is reserved (R105, R108). -/
theorem unquoteFrom_quote1 (b : Byte) (s : Bytes) :
    unquoteFrom .accumulating (quote1 b ++ s) =
      ((unquoteFrom .accumulating s).1, (b, reserved b) :: (unquoteFrom .accumulating s).2) := by
  rcases quote1_cases b with ⟨hr, hq⟩ | ⟨hr, hq⟩
  · rw [hq, hr]
    exact (unquoteFrom_esc (b :: s)).trans (unquoteFrom_literal b s)
  · rw [hq, hr]
    exact unquoteFrom_plain b s ((not_reserved_iff b).mp hr).1

/-- R108. -/
theorem unquote_quote (s : Bytes) : unquote (quote s) = (.accumulating, s.map fun b => (b, reserved b)) := by
  induction s with
  | nil => rfl
  | cons b s ih =>
    rw [unquote] at ih ⊢
    rw [quote_cons, unquoteFrom_quote1, ih, List.map_cons]

/-- UNQUOTE is a left inverse of QUOTE (R107, R108). -/
theorem unquote_quote_bytes (s : Bytes) : (unquote (quote s)).2.map Prod.fst = s := by
  rw [unquote_quote, List.map_map]
  exact List.map_id s

/-- R107. -/
theorem quote_injective : Function.Injective quote := by
  have hinv : Function.LeftInverse (fun t => (unquote t).2.map Prod.fst) quote := unquote_quote_bytes
  exact hinv.injective

/-! ### Replacements -/

theorem replaceByte_append (m : Byte) (s t : Bytes) :
    replaceByte m (s ++ t) = replaceByte m s ++ replaceByte m t := by
  induction s with
  | nil => rfl
  | cons x s ih => simp only [List.cons_append, replaceByte, ih, List.append_assoc]

theorem replaceByte_singleton_self (m : Byte) : replaceByte m [m] = [ESC, m] := by simp [replaceByte]

theorem replaceByte_singleton_of_ne (m x : Byte) (h : x ≠ m) : replaceByte m [x] = [x] := by simp [replaceByte, h]

theorem quoteByReplacement_append (s t : Bytes) :
    quoteByReplacement (s ++ t) = quoteByReplacement s ++ quoteByReplacement t := by
  simp only [quoteByReplacement, replaceByte_append]

/-- On one byte the three replacements are QUOTE: none changes the pair that an earlier one made, since the escape marker is
replaced first (R102). -/
theorem quoteByReplacement_singleton (b : Byte) : quoteByReplacement [b] = quote1 b := by
  rcases quote1_cases b with ⟨hr, hq⟩ | ⟨hr, hq⟩
  · rw [hq]
    rcases (reserved_iff b).mp hr with rfl | rfl | rfl <;> decide
  · obtain ⟨he, ht, hh⟩ := (not_reserved_iff b).mp hr
    rw [hq, quoteByReplacement, replaceByte_singleton_of_ne ESC b he, replaceByte_singleton_of_ne TAIL b ht,
      replaceByte_singleton_of_ne HEADB b hh]

/-- R102: the replacements work byte by byte, as QUOTE does. -/
theorem quoteByReplacement_eq_quote (s : Bytes) : quoteByReplacement s = quote s := by
  induction s with
  | nil => rfl
  | cons b s ih =>
    calc quoteByReplacement ([b] ++ s)
      _ = quoteByReplacement [b] ++ quoteByReplacement s := quoteByReplacement_append [b] s
      _ = quote1 b ++ quote s := by rw [quoteByReplacement_singleton, ih]

/-! ### The streaming escaper -/

/-- The second byte of a pair goes out before anything else comes in. -/
theorem escaperRun_pending (n : Nat) (b : Byte) (s : Bytes) :
    escaperRun (n + 1) (some b) s = b :: escaperRun n none s := rfl

theorem escaperRun_nil (n : Nat) : escaperRun n none [] = [] := by cases n <;> rfl

theorem escaperRun_reserved (n : Nat) (b : Byte) (s : Bytes) (h : reserved b = true) :
    escaperRun (n + 1) none (b :: s) = ESC :: escaperRun n (some b) s := by
  simp only [escaperRun, escaperEmit, if_pos h]

theorem escaperRun_plain (n : Nat) (b : Byte) (s : Bytes) (h : reserved b = false) :
    escaperRun (n + 1) none (b :: s) = b :: escaperRun n none s := by
  simp [escaperRun, escaperEmit, h]

/-- R110, from both values of the one bit: what is emitted is the pending byte, if there is one, and then the escaped rest. -/
theorem escaperRun_eq_take (n : Nat) : ∀ (pending : Option Byte) (s : Bytes),
    escaperRun n pending s = (pending.toList ++ quote s).take n := by
  induction n with
  | zero => exact fun _ _ => rfl
  | succ n ih =>
    intro pending s
    match pending, s with
    | some b, s => rw [escaperRun_pending, ih]; rfl
    | none, [] => exact escaperRun_nil (n + 1)
    | none, b :: s =>
      rcases quote1_cases b with ⟨hr, hq⟩ | ⟨hr, hq⟩
      · rw [escaperRun_reserved n b s hr, ih, quote_cons, hq]; rfl
      · rw [escaperRun_plain n b s hr, ih, quote_cons, hq]; rfl

/-! ### The instructions -/

theorem exec_quote (bs : Bytes) (s : State) : exec (.quote bs) s = .next { s with unitOut := .bytes (quote bs) } := rfl

theorem exec_unquote (b : Byte) (s : State) :
    exec (.unquote b) s =
      .next { s with rxst := (unquoteStep s.rxst b).1, unitOut := .literal (unquoteStep s.rxst b).2 } := rfl

theorem exec_cksum (bs : Bytes) (s : State) : exec (.cksum bs) s = .next { s with unitOut := .byte (cksum bs) } := rfl

theorem exec_encode (c : Byte) (p : Bytes) (s : State) :
    exec (.encode c p) s = .next { s with unitOut := .bytes (encodeFrame c p) } := rfl

/-- R10: the sum of the bytes as integers. -/
theorem byteSum_eq_sum (s : Bytes) : byteSum s = (s.map BitVec.toNat).sum := by
  induction s with
  | nil => rfl
  | cons b s ih => rw [byteSum, ih, List.map_cons, List.sum_cons]

end Sys2Proof.Machine
end

