-- ==== Sys2Proof/Proofs/Escaper.lean ====
section
/-! PROOFS. The statements of 40_escaper.md, and those about the primitives run by themselves that answer a function of their
operands. -/

namespace Sys2Proof
open Machine

/-- Settles O4. -/
theorem escapingRoundTrips : Obligations.EscapingRoundTrips := unquote_quote

/-- Settles O5: no more bytes are reserved than there are. -/
theorem quoteLengthCountsReserved : Obligations.QuoteLengthCountsReserved := by
  intro s
  have hlen := length_quote s
  have hle : s.countP reserved ≤ s.length := List.countP_le_length
  exact ⟨hlen, by omega, by omega⟩

/-- Settles O6: UNQUOTE undoes QUOTE, so QUOTE undoes UNQUOTE on QUOTE's outputs, and there alone since it gives no others. -/
theorem quoteOneToOneUnquoteNot : Obligations.QuoteOneToOneUnquoteNot := by
  refine ⟨fun _ _ h => quote_injective h, by decide, fun t => ⟨fun h => ⟨_, h.symm⟩, ?_⟩⟩
  rintro ⟨s, rfl⟩
  rw [unquote_quote_bytes]

/-- Settles O7: the escaped region is collected whole, and the next byte is a tail outside a pair. -/
theorem quotedRegionEndsAtItsTail : Obligations.QuotedRegionEndsAtItsTail := by
  intro e buf rest
  rw [collectUntil_quote, collectUntil_tail]

/-- Settles O8: with the marker last, the marker of the tail's pair is escaped once more. -/
theorem replacementInRightOrderIsQuote : Obligations.ReplacementInRightOrderIsQuote :=
  ⟨quoteByReplacement_eq_quote, by decide⟩

/-- Settles O9: the escaper starts with no byte pending. -/
theorem streamingEscaperEmitsQuote : Obligations.StreamingEscaperEmitsQuote :=
  fun s n => escaperRun_eq_take n none s

/-- Settles O18. -/
theorem pureFunctionsRun : Obligations.PureFunctionsRun := by
  intro s bs c
  refine ⟨?_, ?_, exec_encode c bs s⟩
  · rw [exec_quote, quote_eq_flatMap, funext quote1_eq_ite]
  · rw [exec_cksum, cksum, byteSum_eq_sum]

/-- Settles O19: the three cases of R105. -/
theorem unquoteRuns : Obligations.UnquoteRuns := by
  intro s b
  refine ⟨fun hst hb => ?_, fun hst hb => ?_, fun hst => ?_⟩
  · obtain rfl : b = ESC := hb
    rw [exec_unquote, hst, unquoteStep_esc]
  · rw [exec_unquote, hst, unquoteStep_plain b hb, ← hst]
  · rw [exec_unquote, hst, unquoteStep_escaped]

end Sys2Proof
end

