-- ==== Sys2Proof/Proofs/ChecksumRules.lean ====
section
/-! PROOFS. The checksum as a sum of bytes: concatenation, order, one changed byte; CHECKFRAME on a wrong checksum; the
accumulator's instructions and their runs. -/

namespace Sys2Proof.Machine

/-! ### The checksum -/

theorem cksum_append (s t : Bytes) : cksum (s ++ t) = cksum s + cksum t := by
  apply BitVec.eq_of_toNat_eq
  rw [BitVec.toNat_add, cksum_toNat, cksum_toNat, cksum_toNat, byteSum_append, Nat.add_mod]

theorem byteSum_perm {s t : Bytes} (h : s.Perm t) : byteSum s = byteSum t := by
  rw [byteSum_eq_sum, byteSum_eq_sum]
  exact (h.map BitVec.toNat).sum_eq

theorem cksum_perm {s t : Bytes} (h : s.Perm t) : cksum s = cksum t := by
  rw [cksum, cksum, byteSum_perm h]

/-- R126: with the other bytes fixed, the checksum is one-to-one in each byte. -/
theorem cksum_append_cons_inj (pre post : Bytes) (b d : Byte) :
    cksum (pre ++ b :: post) = cksum (pre ++ d :: post) ↔ b = d := by
  simp only [cksum_append, cksum_cons, BitVec.add_right_inj, BitVec.add_left_inj]

/-! ### The checksum check -/

/-- R159: behind a good head, a body of at least 2 bytes that does not have the checksum byte is a checksum error. -/
theorem checkFrame_cksum_ne (e : Bytes) (k t : Byte) (hlen : 2 ≤ e.length) (hk : k ≠ cksum e) :
    checkFrame (HEAD ++ e ++ [k, t]) = .error .checksumError := by
  match e with
  | sender :: c :: p => exact (checkFrame_parts sender c k t p).trans (if_pos hk)

/-! ### The accumulator -/

theorem exec_ckClear (s : State) : exec .ckClear s = .next { s with ck := 0 } := rfl

theorem exec_ckAdd (b : Byte) (s : State) : exec (.ckAdd b) s = .next { s with ck := s.ck + b } := by
  rw [← ckAdd_eq]
  rfl

theorem execAll_nil (s : State) : execAll [] s = .next s := rfl

/-- A sequence goes on from the state that its first instruction leaves. -/
theorem execAll_cons_of_next {i : Instr} {s t : State} (is : List Instr) (h : exec i s = .next t) :
    execAll (i :: is) s = execAll is t := by
  rw [execAll, h]

/-- CK_ADD of bytes one after another adds their checksum to `CK`, from any content of it (R123, R124). -/
theorem execAll_ckAdd (bs : Bytes) (s : State) :
    execAll (bs.map .ckAdd) s = .next { s with ck := s.ck + cksum bs } := by
  induction bs generalizing s with
  | nil => rw [List.map_nil, execAll_nil, cksum_nil, add_zero]
  | cons b bs ih =>
    calc execAll ((b :: bs).map .ckAdd) s
      _ = execAll (bs.map .ckAdd) { s with ck := s.ck + b } := execAll_cons_of_next _ (exec_ckAdd b s)
      _ = .next { s with ck := s.ck + b + cksum bs } := ih _
      _ = .next { s with ck := s.ck + cksum (b :: bs) } := by rw [cksum_cons, BitVec.add_assoc]

end Sys2Proof.Machine
end

