-- ==== Sys2Proof/Proofs/Checksum.lean ====
section
/-! PROOFS. The statements of 41_checksum.md. -/

namespace Sys2Proof
open Machine

/-- Settles O21. -/
theorem accumulatorOperationsRun : Obligations.AccumulatorOperationsRun :=
  fun s b => ⟨exec_ckClear s, exec_ckAdd b s⟩

/-- Settles O10: CK_CLEAR leaves 0, to which the additions add the checksum of the bytes, in whatever order they come. -/
theorem accumulatorComputesChecksum : Obligations.AccumulatorComputesChecksum := by
  refine ⟨fun bs cs s hperm => ?_, fun bs cs => ?_, fun _ _ => cksum_perm⟩
  · calc execAll (.ckClear :: cs.map .ckAdd) s
      _ = execAll (cs.map .ckAdd) { s with ck := 0 } := execAll_cons_of_next _ (exec_ckClear s)
      _ = .next { s with ck := 0 + cksum cs } := execAll_ckAdd cs _
      _ = .next { s with ck := cksum bs } := by rw [zero_add, cksum_perm hperm]
  · rw [cksum_append, BitVec.toNat_add]

/-- Settles O11: the changed byte changes the checksum of the body, and not its length. -/
theorem oneChangedBodyByteIsChecksumError : Obligations.OneChangedBodyByteIsChecksumError := by
  rintro pre post b d k hlen hbd rfl
  have hlen' : 2 ≤ (pre ++ d :: post).length := by simpa using hlen
  have hne : cksum (pre ++ b :: post) ≠ cksum (pre ++ d :: post) :=
    mt (cksum_append_cons_inj pre post b d).mp hbd
  exact checkFrame_cksum_ne _ _ TAIL hlen' hne

end Sys2Proof
end

