-- ==== Sys2Proof/Proofs/FramerRules.lean ====
section
/-! PROOFS. The length of a frame and the reserved bytes a request can hold; a completed reception with more bytes behind it;
CHECKFRAME on an image; the framer that builds a frame while sending it; one step of the transmission. -/

namespace Sys2Proof.Machine

/-! ### The length of a frame -/

theorem length_frame (sender c : Byte) (p : Bytes) :
    (frame sender c p).length = 6 + p.length + (ebody sender c p).countP reserved := by
  have hebody : (ebody sender c p).length = p.length + 3 := by simp [ebody, body]
  rw [frame, List.length_append, List.length_append, length_quote, hebody, List.length_cons, List.length_cons,
    List.length_singleton, List.length_nil]
  omega

/-- R133: the host's id is not reserved. -/
theorem length_encodeFrame (c : Byte) (p : Bytes) :
    (encodeFrame c p).length = 6 + p.length + (c :: p ++ [cksum (body HOST_ID c p)]).countP reserved :=
  length_frame HOST_ID c p

/-! ### Reserved bytes of a request -/

theorem reserved_iff_mem (b : Byte) : reserved b = true ↔ b ∈ [ESC, TAIL, HEADB] := by simp [reserved_iff]

theorem reserved_nsByte (ns : Namespace) : reserved (nsByte ns) = false := by cases ns <;> decide

/-- In a READ request with a reserved address the checksum, larger by 2 to 5, is not reserved. -/
theorem reserved_cksum_read (ns : Namespace) (a : Byte) (ha : reserved a = true) :
    reserved (cksum (body HOST_ID CMD_READ [nsByte ns, a])) = false := by
  have hfinite : ∀ a ∈ [ESC, TAIL, HEADB], reserved (cksum (body HOST_ID CMD_READ [nsByte ns, a])) = false := by
    cases ns <;> decide
  exact hfinite a ((reserved_iff_mem a).mp ha)

/-- In a WRITE request with a reserved address and two reserved value bytes, the checksum, larger than their sum by 3 to 6, is
not reserved. -/
theorem reserved_cksum_write (ns : Namespace) (a l h : Byte) (ha : reserved a = true) (hl : reserved l = true)
    (hh : reserved h = true) : reserved (cksum (body HOST_ID CMD_WRITE [nsByte ns, a, l, h])) = false := by
  have hfinite : ∀ a ∈ [ESC, TAIL, HEADB], ∀ l ∈ [ESC, TAIL, HEADB], ∀ h ∈ [ESC, TAIL, HEADB],
      reserved (cksum (body HOST_ID CMD_WRITE [nsByte ns, a, l, h])) = false := by
    cases ns <;> decide
  exact hfinite a ((reserved_iff_mem a).mp ha) l ((reserved_iff_mem l).mp hl) h ((reserved_iff_mem h).mp hh)

/-- Of a request whose payload begins with a namespace byte only the bytes behind that one can be reserved. -/
theorem length_encodeFrame_nsByte (c : Byte) (hc : reserved c = false) (ns : Namespace) (p : Bytes) :
    (encodeFrame c (nsByte ns :: p)).length =
      7 + p.length + (p ++ [cksum (body HOST_ID c (nsByte ns :: p))]).countP reserved := by
  rw [length_encodeFrame, List.cons_append, List.cons_append, List.countP_cons_of_neg (by simp [hc]),
    List.countP_cons_of_neg (by simp [reserved_nsByte]), List.length_cons]
  omega

/-- If these bytes, one more than `p` has, are not all reserved, the frame has at most one escape marker per byte of `p`. -/
theorem length_encodeFrame_nsByte_bounds (c : Byte) (hc : reserved c = false) (ns : Namespace) (p : Bytes)
    (h : ¬ ∀ b ∈ p ++ [cksum (body HOST_ID c (nsByte ns :: p))], reserved b = true) :
    7 + p.length ≤ (encodeFrame c (nsByte ns :: p)).length ∧
      (encodeFrame c (nsByte ns :: p)).length ≤ 7 + 2 * p.length := by
  have hlt := lt_of_le_of_ne List.countP_le_length (mt List.countP_eq_length.mp h)
  rw [List.length_append, List.length_singleton] at hlt
  rw [length_encodeFrame_nsByte c hc]
  omega

/-- R133: of the address and the checksum of a READ request at most one is reserved. -/
theorem length_requestFrame_read (ns : Namespace) (a : Byte) (v : ConfigValue) :
    8 ≤ (requestFrame .read ns a v).length ∧ (requestFrame .read ns a v).length ≤ 9 := by
  refine length_encodeFrame_nsByte_bounds CMD_READ rfl ns [a] fun hall => ?_
  have hk := reserved_cksum_read ns a (hall a (by simp))
  exact Bool.false_ne_true (hk.symm.trans (hall _ (by simp)))

/-- R133: of the address, the value's bytes and the checksum of a WRITE request at most three are reserved. -/
theorem length_requestFrame_write (ns : Namespace) (a : Byte) (v : ConfigValue) :
    10 ≤ (requestFrame .write ns a v).length ∧ (requestFrame .write ns a v).length ≤ 13 := by
  refine length_encodeFrame_nsByte_bounds CMD_WRITE rfl ns [a, valLo v, valHi v] fun hall => ?_
  have hk := reserved_cksum_write ns a (valLo v) (valHi v) (hall a (by simp)) (hall _ (by simp)) (hall _ (by simp))
  exact Bool.false_ne_true (hk.symm.trans (hall _ (by simp)))

/-! ### A frame in the deframer -/

/-- No byte behind the one that completes a frame is looked at: the reception ends with it (R155). -/
theorem collectUntil_append_of_completed (pre post : Bytes) (buf' r : Bytes) (st' : RxState) :
    ∀ (st : RxState) (buf : Bytes), collectUntil st buf pre = (st', buf', some r) →
      collectUntil st buf (pre ++ post) = (st', buf', some (r ++ post)) := by
  induction pre with
  | nil => intro st buf h; simp [collectUntil_nil] at h
  | cons b pre ih =>
    intro st buf h
    rcases hc : collect st buf b with ⟨st1, buf1, done⟩
    rw [collectUntil, hc] at h
    rw [List.cons_append, collectUntil, hc]
    cases done with
    | false => exact ih st1 buf1 h
    | true => cases h; rfl

/-- A stream that completes at its last byte completes at no earlier one. -/
theorem collectUntil_proper_prefix (pre post buf buf' : Bytes) (st st' : RxState) (hne : post ≠ [])
    (h : collectUntil st buf (pre ++ post) = (st', buf', some [])) : (collectUntil st buf pre).2.2 = none := by
  rcases hc : collectUntil st buf pre with ⟨st1, buf1, done⟩
  cases done with
  | none => rfl
  | some r =>
    rw [collectUntil_append_of_completed pre post buf1 r st1 st buf hc] at h
    have hnil : r ++ post = [] := Option.some.inj (congrArg (·.2.2) h)
    exact absurd (List.append_eq_nil_iff.mp hnil).2 hne

/-- A frame completes at its last byte with its image collected, whoever sent it (R134). -/
theorem collectUntil_frame (sender c : Byte) (p : Bytes) :
    collectUntil .accumulating [] (frame sender c p) = (.accumulating, image sender c p, some []) :=
  collectUntil_wireForm (ebody sender c p)

/-- CHECKFRAME on an image, whose checksum is right, leaves the sender to be checked (R157). -/
theorem checkFrame_image (sender c : Byte) (p : Bytes) :
    checkFrame (image sender c p) = if sender ≠ DEV_ID then .error .senderError else .ok c p := by
  have himage : image sender c p = [0x55, 0x55, sender, c] ++ p ++ [cksum ([sender, c] ++ p), TAIL] := by
    simp [image, ebody, body]
  rw [himage, checkFrame_parts, if_neg (not_not.mpr rfl)]

/-! ### The frame built while it is sent -/

/-- The bytes sent are the escaped ones, and the accumulator has added their checksum to its content (R110, R123). -/
theorem streamBody_eq (s : Bytes) : ∀ ck : Byte, streamBody ck s = (ck + cksum s, quote s) := by
  induction s with
  | nil => intro ck; rw [cksum_nil, add_zero]; rfl
  | cons b s ih => intro ck; rw [streamBody, ih, ckAdd_eq, cksum_cons, quote_cons, BitVec.add_assoc]

theorem quote_singleton (b : Byte) : quote [b] = quote1 b := List.append_nil (quote1 b)

/-! ### One step of the transmission -/

/-- In `Tx` with the transport ready the step hands over the first byte of the queue (R136). -/
theorem step_handOver (s : State) (b : Byte) (rest : Bytes) (more : List TxAnswer) (h : Quiet s) (hp : s.phase = .tx)
    (hq : s.txq = b :: rest) (ha : s.txAnswers = .ok :: more) :
    step s = .next (handOver b rest { s with txAnswers := more }) := by
  rw [step_quiet s h, engineStep_tx s h.2 hp, transmit, hq, ha]

end Sys2Proof.Machine
end

