-- ==== Sys2Proof/Proofs/Framer.lean ====
section
/-! PROOFS. The statements of 42_framer_tx.md. -/

namespace Sys2Proof
open Machine

/-- Settles O12: CONNECT and VERSION send one frame whatever their operands. -/
theorem requestLengths : Obligations.RequestLengths :=
  by
  refine ⟨length_encodeFrame, fun _ _ _ => ⟨rfl, rfl⟩, fun ns addr v => ?_, length_requestFrame_write, by decide⟩
  have hread := length_requestFrame_read ns addr v
  omega

/-- Settles O13: the stream completes at the frame's last byte, so the rest stays and no proper prefix completes. -/
theorem frameComesBackThroughDeframer : Obligations.FrameComesBackThroughDeframer := by
  intro sender c p rest
  have hframe := collectUntil_frame sender c p
  refine ⟨collectUntil_append_of_completed _ rest _ [] _ _ _ hframe, fun pre post hsplit hne => ?_,
    checkFrame_image DEV_ID c p, checkFrame_image HOST_ID c p⟩
  exact collectUntil_proper_prefix pre post _ _ _ _ hne (hsplit ▸ hframe)

/-- Settles O16: the cleared accumulator ends at the body's checksum, and escaping the body and then the checksum is escaping
the ebody. -/
theorem frameBuiltWhileSendingIsEncode : Obligations.FrameBuiltWhileSendingIsEncode := by
  intro c p
  rw [streamFrame, streamBody_eq, zero_add, ← quote_singleton, encodeFrame, frame, ebody, quote_append,
    List.append_assoc HEAD]

/-- Settles O27: the two cases of the hand-over, on the last byte and before it. -/
theorem transmitStepAndTurnAround : Obligations.TransmitStepAndTurnAround := by
  intro s b rest more hquiet hp hq ha
  rw [step_handOver s b rest more hquiet hp hq ha]
  refine ⟨fun hne => ?_, fun hlast => ?_⟩
  · obtain ⟨c, rest, rfl⟩ := List.exists_cons_of_ne_nil hne
    exact ⟨_, _, congrArg _ (handOver_more b c rest _)⟩
  · subst hlast
    exact ⟨_, _, congrArg _ (handOver_last b _)⟩

end Sys2Proof
end

