-- ==== Sys2Proof/Proofs/DeframerRules.lean ====
section
/-! PROOFS. The deframer's functions: what CHECKFRAME passes, a stream collected up to its first unescaped tail; RXBYTE in `Rx`,
CHECKFRAME and the response frames run by themselves; a step that waits. -/

namespace Sys2Proof.Machine

/-! ### The checks on a frame -/

/-- A buffer with a good head and at least 6 bytes has all the parts that CHECKFRAME looks at. -/
theorem exists_parts_of_head (f : Bytes) (hlen : 6 ≤ f.length) (hhead : f.take 2 = [0x55, 0x55]) :
    ∃ sender c p k t, f = [0x55, 0x55, sender, c] ++ p ++ [k, t] := by
  match f with
  | h0 :: h1 :: sender :: c :: rest =>
    obtain ⟨rfl, rfl⟩ : h0 = 0x55 ∧ h1 = 0x55 := by simpa using hhead
    have hrest : 2 ≤ rest.length := by simpa using hlen
    have hlast : (rest.drop (rest.length - 2)).length = 2 := by rw [List.length_drop]; omega
    obtain ⟨k, t, hkt⟩ := List.length_eq_two.mp hlast
    refine ⟨sender, c, rest.take (rest.length - 2), k, t, ?_⟩
    rw [← hkt, List.append_assoc, List.take_append_drop]
    rfl

/-- CHECKFRAME passes the buffers of its one form, whatever byte comes last (R157 to R162). -/
theorem checkFrame_ok_iff (f : Bytes) (c : Byte) (p : Bytes) :
    checkFrame f = .ok c p ↔ ∃ t, f = [0x55, 0x55, 0xFF, c] ++ p ++ [cksum ([0xFF, c] ++ p), t] := by
  refine ⟨fun hok => ?_, ?_⟩
  · have hgood : ¬ (f.length < 6 ∨ f.take 2 ≠ [0x55, 0x55]) := fun hbad => by
      simp [checkFrame_framing f hbad] at hok
    obtain ⟨hlen, hhead⟩ := not_or.mp hgood
    obtain ⟨sender, c', p', k, t, rfl⟩ := exists_parts_of_head f (not_lt.mp hlen) (not_not.mp hhead)
    rw [checkFrame_parts] at hok
    split_ifs at hok with hk hs
    cases hok
    obtain rfl := not_not.mp hk
    obtain rfl := not_not.mp hs
    exact ⟨t, rfl⟩
  · rintro ⟨t, rfl⟩
    rw [checkFrame_parts, if_neg (not_not.mpr rfl)]
    rfl

/-! ### Collecting up to the tail -/

theorem unquoteFrom_cons (st : RxState) (b : Byte) (s : Bytes) :
    unquoteFrom st (b :: s) =
      ((unquoteFrom (unquoteStep st b).1 s).1,
        (unquoteStep st b).2.toList ++ (unquoteFrom (unquoteStep st b).1 s).2) := rfl

/-- Only a tail that no marker precedes unescapes to an unmarked tail (R153). -/
theorem unquoteStep_tail_iff (st : RxState) (b : Byte) :
    (unquoteStep st b).2 = some (TAIL, false) ↔ st = .accumulating ∧ b = TAIL := by
  cases st with
  | escaped => simp [unquoteStep]
  | accumulating =>
    by_cases hb : b = ESC
    · subst hb; simp [unquoteStep]
    · simp [unquoteStep, hb]

/-- `pre` unescapes from `st` to `outs` with no unmarked tail among them, ending in `Accumulating`: what is taken before the
byte that completes a frame. -/
def UnescapesBeforeTail (st : RxState) (pre outs : Bytes) : Prop :=
  (unquoteFrom st pre).1 = .accumulating ∧ outs = (unquoteFrom st pre).2.map Prod.fst ∧
    (TAIL, false) ∉ (unquoteFrom st pre).2

theorem UnescapesBeforeTail.nil : UnescapesBeforeTail .accumulating [] [] := ⟨rfl, rfl, List.not_mem_nil⟩

/-- A byte in front that gives no unmarked tail. -/
theorem UnescapesBeforeTail.cons {st : RxState} {b : Byte} {pre outs : Bytes}
    (hb : (unquoteStep st b).2 ≠ some (TAIL, false)) (h : UnescapesBeforeTail (unquoteStep st b).1 pre outs) :
    UnescapesBeforeTail st (b :: pre) ((unquoteStep st b).2.toList.map Prod.fst ++ outs) := by
  obtain ⟨hst, rfl, hnot⟩ := h
  rw [UnescapesBeforeTail, unquoteFrom_cons, List.map_append, List.mem_append, Option.mem_toList]
  exact ⟨hst, rfl, not_or.mpr ⟨hb, hnot⟩⟩

/-- R156, from any state and buffer: a stream that completes a frame is what unescapes before the tail, the tail, and the
rest. -/
theorem collectUntil_completed (bs : Bytes) (st' : RxState) (buf' rest : Bytes) : ∀ (st : RxState) (buf : Bytes),
    collectUntil st buf bs = (st', buf', some rest) →
    st' = .accumulating ∧ ∃ pre outs, bs = pre ++ TAIL :: rest ∧ UnescapesBeforeTail st pre outs ∧
      buf' = buf ++ outs ++ [TAIL] := by
  induction bs with
  | nil => intro st buf h; simp [collectUntil_nil] at h
  | cons b bs ih =>
    intro st buf h
    by_cases hb : (unquoteStep st b).2 = some (TAIL, false)
    · obtain ⟨rfl, rfl⟩ := (unquoteStep_tail_iff st b).mp hb
      rw [collectUntil_tail] at h
      cases h
      exact ⟨rfl, [], [], rfl, .nil, by rw [List.append_nil]⟩
    · rw [collectUntil, collect_unquoteStep, decide_eq_false hb] at h
      obtain ⟨rfl, pre, outs, rfl, hpre, rfl⟩ := ih _ _ h
      exact ⟨rfl, b :: pre, _, rfl, hpre.cons hb, by simp only [List.append_assoc]⟩

/-! ### The collecting step -/

theorem collect_escaped (buf : Bytes) (b : Byte) : collect .escaped buf b = (.accumulating, buf ++ [b], false) := rfl

theorem collect_esc (buf : Bytes) : collect .accumulating buf ESC = (.escaped, buf, false) := rfl

theorem collect_tail (buf : Bytes) : collect .accumulating buf TAIL = (.accumulating, buf ++ [TAIL], true) := rfl

theorem collect_plain (buf : Bytes) (b : Byte) (he : b ≠ ESC) (ht : b ≠ TAIL) :
    collect .accumulating buf b = (.accumulating, buf ++ [b], false) := by
  rw [collect, if_neg he, decide_eq_false ht]

/-! ### The instructions -/

/-- CHECKFRAME writes its answer on `RXBUF` and nothing else (R157). -/
theorem exec_checkframe_of_eq (s : State) (r : CheckResult) (h : checkFrame s.rxbuf = r) :
    exec .checkframe s = .next { s with unitOut := .checked r } := by
  subst h
  rfl

theorem exec_rxbyte_of_rx (b : Byte) (s : State) (hp : s.phase = .rx) :
    exec (.rxbyte b) s = .next (receiveByte b s) := if_pos hp

/-- RXBYTE of a byte that completes no frame (R152). -/
theorem exec_rxbyte_collects (b : Byte) (s : State) (st : RxState) (buf : Bytes) (hp : s.phase = .rx)
    (h : collect s.rxst s.rxbuf b = (st, buf, false)) :
    ∃ ck n, exec (.rxbyte b) s = .next { s with rxst := st, rxbuf := buf, ck := ck, free := n } := by
  rw [exec_rxbyte_of_rx b s hp, receiveByte_collects b s st buf h]
  exact ⟨_, _, rfl⟩

/-- RXBYTE of a byte that completes a frame (R152). -/
theorem exec_rxbyte_completes (b : Byte) (s : State) (st : RxState) (buf : Bytes) (hp : s.phase = .rx)
    (h : collect s.rxst s.rxbuf b = (st, buf, true)) :
    ∃ ck n, exec (.rxbyte b) s = .next (evaluate { s with rxst := st, rxbuf := buf, ck := ck, free := n }) := by
  rw [exec_rxbyte_of_rx b s hp, receiveByte_completes b s st buf h]
  exact ⟨_, _, rfl⟩

/-! ### Waiting -/

/-- With nothing in the transport a step in `Rx` changes nothing (R155). -/
theorem step_waits_in_rx (s : State) (h : Quiet s) (hp : s.phase = .rx) (hx : s.rx = []) : step s = .next s := by
  rw [step_quiet s h, engineStep_rx s h.2 hp, takeOne, hx]

/-- A state that a step answers unchanged is answered by every run. -/
theorem run_of_step_eq_self (s : State) (h : step s = .next s) (k : Nat) :
    (Host.Core.run core k s : Host.Outcome State Fault Refusal) = .next s := by
  induction k with
  | zero => rfl
  | succ k ih => rw [run_next k s s h, ih]

end Sys2Proof.Machine
end

