-- ==== Sys2Proof/Proofs/Deframer.lean ====
section
/-! PROOFS. The statements of 43_deframer_rx.md. -/

namespace Sys2Proof
open Machine

/-! ### The pure functions -/

/-- Settles O14: of the buffers that CHECKFRAME passes, those that end with the tail. -/
theorem checkedBuffersAreImages : Obligations.CheckedBuffersAreImages := by
  intro f c p hlast
  rw [checkFrame_ok_iff]
  refine ⟨?_, fun himage => ⟨_, himage⟩⟩
  rintro ⟨t, rfl⟩
  obtain rfl : t = TAIL := Option.some.inj (List.getLast?_append.symm.trans hlast)
  rfl

/-- Settles O15: R156 from the start of a reception. -/
theorem completedBufferEndsWithBareTail : Obligations.CompletedBufferEndsWithBareTail := by
  intro bs st buf rest h
  obtain ⟨hst, pre, _, hbs, ⟨hacc, rfl, hnot⟩, hbuf⟩ := collectUntil_completed bs st buf rest _ _ h
  exact ⟨hst, pre, hbs, hacc, hbuf, hnot⟩

/-! ### The instructions run by themselves -/

/-- Settles O20: a buffer either has all the parts that the checks look at, or is a framing error. -/
theorem checkframeRuns : Obligations.CheckframeRuns := by
  refine ⟨fun s sender c k t p hbuf => exec_checkframe_of_eq s _ ?_, fun s hbad => exec_checkframe_of_eq s _ ?_⟩
  · rw [hbuf]
    exact checkFrame_parts sender c k t p
  · exact checkFrame_framing s.rxbuf hbad

/-- Settles O30: each case is one of the collecting step. -/
theorem rxbyteCollects : Obligations.RxbyteCollects := by
  intro s b hp
  refine ⟨fun hst => ?_, fun hst hb => ?_, fun hst hesc htail => ?_⟩
  · exact exec_rxbyte_collects b s _ _ hp (by rw [hst, collect_escaped])
  · subst hb
    exact exec_rxbyte_collects ESC s .escaped s.rxbuf hp (by rw [hst, collect_esc])
  · exact exec_rxbyte_collects b s s.rxst _ hp (by rw [hst, collect_plain _ b hesc htail])

/-- Settles O31: the tail completes the frame, and the evaluation is the report of the operation in progress. -/
theorem tailEvaluatesFrame : Obligations.TailEvaluatesFrame := by
  intro s hp hst
  obtain ⟨ck, n, e⟩ := exec_rxbyte_completes TAIL s s.rxst _ hp (by rw [hst, collect_tail])
  exact ⟨ck, n, e.trans (congrArg _ (evaluate_reports _))⟩

/-- Settles O34: each response row is the arrival of the wire form of its image, which is evaluated. -/
theorem responseFramesReported : Obligations.ResponseFramesReported := by
  intro s i img hp hst hbuf hx hrow
  obtain ⟨e, hexec, rfl⟩ : ∃ e, exec i s = .next (receiveBytes (wireForm e) s) ∧ img = HEAD ++ e ++ [TAIL] := by
    rcases hrow with ⟨c, p, k, rfl, rfl⟩ | ⟨l, h, k, rfl, rfl⟩ | ⟨n, a, l, h, k, rfl, rfl⟩
    · exact ⟨_, exec_rspV c p k s, (image_rspV c k p).symm⟩
    · exact ⟨_, exec_rspR l h k s, rfl⟩
    · exact ⟨_, exec_rspW n a l h k s, rfl⟩
  obtain ⟨ck, m, hreceived⟩ := receiveBytes_wireForm e s ⟨hp, hst, hbuf, hx⟩
  exact ⟨ck, m, by rw [hexec, hreceived, evaluate_reports]⟩

/-! ### No end of a reception -/

/-- Settles O41: the step that waits answers the same state, and so does every run of it. -/
theorem stuckReceptionHangs : Obligations.StuckReceptionHangs := by
  intro s k hquiet hp hx
  refine ⟨run_of_step_eq_self s (step_waits_in_rx s hquiet hp hx) k, ?_, ?_⟩ <;> simp [outputs, hp]

end Sys2Proof
end

