-- ==== Sys2Proof/Proofs/CommandRules.lean ====
section
/-! PROOFS. The steps of R199 that carry an operation out: the accept step and its refusals, each step in a quiet environment,
and the runs of a whole transmission, a whole reception and a whole operation. -/

namespace Sys2Proof.Machine

/-! ### The accept step -/

/-- R181. -/
theorem inRange_iff (value : Int) : inRange value = true ↔ 0 ≤ value ∧ value ≤ 65535 := by simp [inRange]

/-- R192: an operation that passes the gate and the range check is accepted. -/
theorem offer_accepted (op : Op) (ns : Namespace) (addr : Byte) (value : Int) (s : State) (hp : s.phase = .idle)
    (hgate : op = .read ∨ op = .write → s.connected = true) (hrange : op = .write → 0 ≤ value ∧ value ≤ 65535) :
    offer op ns addr value s = latch op ns addr value s := by
  rcases refusal_cases op value s with ⟨hpass, _, _⟩ | ⟨_, ho, hc⟩ | ⟨_, ho, _, hr⟩
  · simp only [offer, if_pos hp, accept, hpass]
  · simp [hgate ho] at hc
  · simp [(inRange_iff value).mpr (hrange ho)] at hr

/-- R180: the gate goes before the range check. -/
theorem offer_unconnected (op : Op) (ns : Namespace) (addr : Byte) (value : Int) (s : State) (hp : s.phase = .idle)
    (ho : op = .read ∨ op = .write) (hc : s.connected = false) :
    offer op ns addr value s = raise op .notConnected s := by
  rcases refusal_cases op value s with ⟨_, hgate, _⟩ | ⟨hrefused, _, _⟩ | ⟨_, _, hconn, _⟩
  · simp [hgate ho] at hc
  · simp only [offer, if_pos hp, accept, hrefused]
  · simp [hconn] at hc

/-- R181: a connected WRITE out of range. -/
theorem offer_out_of_range (ns : Namespace) (addr : Byte) (value : Int) (s : State) (hp : s.phase = .idle)
    (hc : s.connected = true) (hr : value < 0 ∨ 65535 < value) :
    offer .write ns addr value s = raise .write .rangeError s := by
  rcases refusal_cases .write value s with ⟨_, _, hrange⟩ | ⟨_, _, hconn⟩ | ⟨hrefused, _, _, _⟩
  · have := (inRange_iff value).mp (hrange rfl)
    omega
  · simp [hconn] at hc
  · simp only [offer, if_pos hp, accept, hrefused]

/-! ### The value on the wire -/

/-- R81: the low byte of a value operand, in range or not. -/
theorem valLo_valueOf (value : Int) : valLo (valueOf value) = BitVec.ofInt 8 (value % 256) := by
  apply BitVec.eq_of_toNat_eq
  rw [valLo_toNat, valueOf, BitVec.toNat_ofInt, BitVec.toNat_ofInt]
  omega

/-- R81: the high byte of a value operand in range. -/
theorem valHi_valueOf (value : Int) (h0 : 0 ≤ value) (h1 : value ≤ 65535) :
    valHi (valueOf value) = BitVec.ofInt 8 (value / 256) := by
  apply BitVec.eq_of_toNat_eq
  rw [valHi_toNat, valueOf, BitVec.toNat_ofInt, BitVec.toNat_ofInt]
  omega

/-- Only WRITE sends a value. -/
theorem requestFrame_value (op : Op) (hne : op ≠ .write) (ns : Namespace) (addr : Byte) (v v' : ConfigValue) :
    requestFrame op ns addr v = requestFrame op ns addr v' := by
  cases op with
  | write => exact absurd rfl hne
  | _ => rfl

/-- Only WRITE looks at the value sent. -/
theorem report_value (op : Op) (hne : op ≠ .write) (ns : Namespace) (addr : Byte) (v v' : ConfigValue) (f : Bytes) :
    report op ns addr v f = report op ns addr v' f := by
  cases op with
  | write => exact absurd rfl hne
  | _ => rfl

/-- The accept step loads the request frame of its operands, whatever `REQ_VAL` held (R192). -/
theorem latch_txq_eq (op : Op) (ns : Namespace) (addr : Byte) (value : Int) (s : State) :
    (latch op ns addr value s).txq = requestFrame op ns addr (valueOf value) := by
  rw [latch_txq]
  split_ifs with hw
  · rfl
  · exact requestFrame_value op hw ns addr _ _

/-- The report of the operation accepted is that of its operands, whatever `REQ_VAL` held. -/
theorem report_latch (op : Op) (ns : Namespace) (addr : Byte) (value : Int) (s : State) (f : Bytes) :
    report op ns addr (latch op ns addr value s).reqVal f = report op ns addr (valueOf value) f := by
  rw [latch_reqVal]
  split_ifs with hw
  · rfl
  · exact report_value op hw ns addr _ _ f

/-! ### One step in a quiet environment -/

/-- In `Idle` the step runs the operation that is offered first (R192, R193). -/
theorem step_offer (s : State) (op : Op) (ns : Namespace) (addr : Byte) (value : Int) (more : List Command)
    (h : Quiet s) (hp : s.phase = .idle) (ho : s.offers = ⟨opCode op, nsCode ns, addr, value⟩ :: more) :
    step s = .next (offer op ns addr value { s with offers := more }) := by
  rw [step_quiet s h]
  rcases engineStep_idle s h.2 hp with ⟨hnil, _⟩ | ⟨c, more', ho', he⟩
  · simp [ho] at hnil
  · obtain ⟨rfl, rfl⟩ := List.cons.inj (ho.symm.trans ho')
    rw [he, opOfCode_opCode, nsOfCode_nsCode]

/-- In `Tx` with the transport failing the step ends the operation (R194). -/
theorem step_transmitFail (s : State) (more : List TxAnswer) (h : Quiet s) (hp : s.phase = .tx) (hq : s.txq ≠ [])
    (ha : s.txAnswers = .fail :: more) : step s = .next (transmitFail { s with txAnswers := more }) := by
  obtain ⟨b, rest, hq⟩ := List.exists_cons_of_ne_nil hq
  rw [step_quiet s h, engineStep_tx s h.2 hp, transmit, hq, ha]

/-- In `Rx` the step takes the oldest item of the transport (R151, R196). -/
theorem step_takeOne (s : State) (h : Quiet s) (hp : s.phase = .rx) : step s = .next (takeOne s) := by
  rw [step_quiet s h, engineStep_rx s h.2 hp]

/-- In `Res` with the host ready the step gives the result (R198). -/
theorem step_giveResult (s : State) (n : Nat) (h : Quiet s) (hp : s.phase = .res) (ht : s.takes = n + 1) :
    step s = .next (giveResult { s with takes := n }) := by
  rw [step_quiet s h]
  rcases engineStep_res s h.2 hp with ⟨hzero, _⟩ | ⟨m, hm, he⟩
  · omega
  · obtain rfl : n = m := by omega
    exact he

/-! ### Waiting and progress -/

theorem step_waits_in_idle (s : State) (h : Quiet s) (hp : s.phase = .idle) (ho : s.offers = []) :
    step s = .next s := by
  rw [step_quiet s h]
  rcases engineStep_idle s h.2 hp with ⟨_, he⟩ | ⟨_, _, ho', _⟩
  · exact he
  · simp [ho] at ho'

theorem step_waits_in_tx (s : State) (h : Quiet s) (hp : s.phase = .tx) (hq : s.txq ≠ []) (ha : s.txAnswers = []) :
    step s = .next s := by
  obtain ⟨b, rest, hq⟩ := List.exists_cons_of_ne_nil hq
  rw [step_quiet s h, engineStep_tx s h.2 hp, transmit, hq, ha]

theorem step_waits_in_res (s : State) (h : Quiet s) (hp : s.phase = .res) (ht : s.takes = 0) :
    step s = .next s := by
  rw [step_quiet s h]
  rcases engineStep_res s h.2 hp with ⟨_, he⟩ | ⟨_, hm, _⟩
  · exact he
  · omega

/-- With a byte to send the transmit step answers a state: the one fault is that of an empty queue. -/
theorem exists_transmit_next (s : State) (hq : s.txq ≠ []) : ∃ t, transmit s = .next t := by
  obtain ⟨b, rest, hq⟩ := List.exists_cons_of_ne_nil hq
  rcases transmit_cases s b rest hq with ⟨_, e⟩ | ⟨_, _, e⟩ | ⟨_, _, e⟩ <;> exact ⟨_, e⟩

/-- The steps of R199 answer a state in every phase, in `Tx` because the invariant keeps the queue from being empty. -/
theorem exists_engineStep_next (s : State) (h : Good s) (hb : s.bench = []) : ∃ t, engineStep s = .next t := by
  cases hp : s.phase with
  | idle => rcases engineStep_idle s hb hp with ⟨_, e⟩ | ⟨_, _, _, e⟩ <;> exact ⟨_, e⟩
  | tx => rw [engineStep_tx s hb hp]; exact exists_transmit_next s (h.txRest hp).1
  | rx => exact ⟨_, engineStep_rx s hb hp⟩
  | res => rcases engineStep_res s hb hp with ⟨_, e⟩ | ⟨_, _, e⟩ <;> exact ⟨_, e⟩

/-! ### Runs -/

/-- `k` steps lead from `s` to `t`. -/
def RunsTo (k : Nat) (s t : State) : Prop :=
  (Host.Core.run core k s : Host.Outcome State Fault Refusal) = .next t

theorem RunsTo.of_step {s t : State} (h : step s = .next t) : RunsTo 1 s t := run_next 0 s t h

theorem RunsTo.trans {j k : Nat} {s u t : State} (h : RunsTo j s u) (h' : RunsTo k u t) : RunsTo (j + k) s t :=
  (run_add j k s u h).trans h'

/-- A run that begins with one step. -/
theorem RunsTo.cons {k : Nat} {s u t : State} (h : step s = .next u) (h' : RunsTo k u t) : RunsTo (k + 1) s t :=
  (run_next k s u h).trans h'

/-- With the transport accepting every byte the queue goes out one byte a step, and the last step turns around
(R136, R137). -/
theorem runsTo_transmitted (wire : Bytes) : ∀ (s : State) (more : List TxAnswer), Quiet s → wire ≠ [] →
    s.phase = .tx → s.txq = wire → s.txAnswers = List.replicate wire.length .ok ++ more →
    ∃ ck n, RunsTo wire.length s { s with
      sent := s.sent ++ wire, txq := [], txAnswers := more, phase := .rx, rxst := .accumulating, rxbuf := [],
      ck := ck, free := n } := by
  induction wire with
  | nil => intro _ _ _ hne; exact absurd rfl hne
  | cons b rest ih =>
    intro s more h _ hp hq ha
    have hstep : step s = .next (handOver b rest { s with txAnswers := List.replicate rest.length .ok ++ more }) :=
      step_handOver s b rest _ h hp hq ha
    cases rest with
    | nil =>
      rw [handOver_last] at hstep
      exact ⟨_, _, .of_step hstep⟩
    | cons c rest =>
      rw [handOver_more] at hstep
      obtain ⟨ck, n, hrun⟩ := ih (scratchCk { s with
        txAnswers := List.replicate (c :: rest).length .ok ++ more, sent := s.sent ++ [b], txq := c :: rest })
        more h (by simp) hp rfl rfl
      rw [List.append_cons s.sent b (c :: rest)]
      exact ⟨ck, n, .cons hstep hrun⟩

/-- A stream that completes a frame at its last byte is taken one byte a step, and the last step evaluates the frame
(R152). -/
theorem runsTo_evaluated (bs : Bytes) : ∀ (s : State) (later : List RxItem) (st : RxState) (buf : Bytes), Quiet s →
    s.phase = .rx → s.rx = bs.map .byte ++ later → collectUntil s.rxst s.rxbuf bs = (st, buf, some []) →
    ∃ ck n, RunsTo bs.length s
      (evaluate { s with rx := later, rxst := st, rxbuf := buf, ck := ck, free := n }) := by
  induction bs with
  | nil => intro s later st buf _ _ _ hc; simp [collectUntil_nil] at hc
  | cons b bs ih =>
    intro s later st buf h hp hx hc
    have hstep : step s = .next (receiveByte b { s with rx := bs.map .byte ++ later }) := by
      rw [step_takeOne s h hp, takeOne, hx, List.map_cons, List.cons_append]
    rcases hb : collect s.rxst s.rxbuf b with ⟨st1, buf1, done⟩
    rw [collectUntil, hb] at hc
    cases done with
    | true =>
      cases hc
      have hlast := receiveByte_completes b { s with rx := later } st buf hb
      exact ⟨_, _, .of_step (hstep.trans (congrArg _ hlast))⟩
    | false =>
      rw [receiveByte_collects b { s with rx := bs.map .byte ++ later } st1 buf1 hb] at hstep
      obtain ⟨ck, n, hrun⟩ := ih (scratchCk { s with rx := bs.map .byte ++ later, rxst := st1, rxbuf := buf1 })
        later st buf h hp rfl hc
      exact ⟨ck, n, .cons hstep hrun⟩

/-- The whole queue goes out, and then the stream comes in and its frame is evaluated. -/
theorem runsTo_exchanged (s : State) (bs buf : Bytes) (st : RxState) (answers : List TxAnswer) (later : List RxItem)
    (h : Quiet s) (hp : s.phase = .tx) (hq : s.txq ≠ [])
    (ha : s.txAnswers = List.replicate s.txq.length .ok ++ answers)
    (hc : collectUntil .accumulating [] bs = (st, buf, some [])) (hx : s.rx = bs.map .byte ++ later) :
    ∃ ck n, RunsTo (s.txq.length + bs.length) s (evaluate { s with
      sent := s.sent ++ s.txq, txq := [], txAnswers := answers, phase := .rx, rx := later, rxst := st, rxbuf := buf,
      ck := ck, free := n }) := by
  obtain ⟨ck, n, hsend⟩ := runsTo_transmitted s.txq s answers h hq hp rfl ha
  obtain ⟨ck', n', hreceive⟩ := runsTo_evaluated bs { s with
      sent := s.sent ++ s.txq, txq := [], txAnswers := answers, phase := .rx, rxst := .accumulating, rxbuf := [],
      ck := ck, free := n } later st buf h rfl hx hc
  exact ⟨ck', n', hsend.trans hreceive⟩

/-- A whole operation that is accepted: the accept step, the exchange of its request for the stream, and the result step
(R199). -/
theorem runsTo_operation (s : State) (op : Op) (ns : Namespace) (addr : Byte) (value : Int) (more : List Command)
    (bs buf : Bytes) (st : RxState) (answers : List TxAnswer) (later : List RxItem) (n : Nat)
    (h : Quiet s) (hp : s.phase = .idle) (ho : s.offers = ⟨opCode op, nsCode ns, addr, value⟩ :: more)
    (hgate : op = .read ∨ op = .write → s.connected = true) (hrange : op = .write → 0 ≤ value ∧ value ≤ 65535)
    (ha : s.txAnswers = List.replicate (requestFrame op ns addr (valueOf value)).length .ok ++ answers)
    (hc : collectUntil .accumulating [] bs = (st, buf, some [])) (hx : s.rx = bs.map .byte ++ later)
    (ht : s.takes = n + 1) :
    ∃ ck m, RunsTo ((requestFrame op ns addr (valueOf value)).length + bs.length + 2) s
      (giveResult { evaluate { latch op ns addr value s with
        offers := more, sent := s.sent ++ requestFrame op ns addr (valueOf value), txq := [], txAnswers := answers,
        phase := .rx, rx := later, rxst := st, rxbuf := buf, ck := ck, free := m } with takes := n }) := by
  have haccept := step_offer s op ns addr value more h hp ho
  rw [offer_accepted op ns addr value { s with offers := more } hp hgate hrange] at haccept
  have hq := latch_txq_eq op ns addr value { s with offers := more }
  obtain ⟨ck, m, hexchange⟩ := runsTo_exchanged (latch op ns addr value { s with offers := more }) bs buf st answers
    later h rfl (by rw [hq]; exact requestFrame_ne_nil _ _ _ _) (by rw [hq]; exact ha) hc hx
  rw [hq] at hexchange
  refine ⟨ck, m, .cons haccept (hexchange.trans (.of_step (step_giveResult _ n ?_ (evaluate_phase _) ?_)))⟩
  · rw [evaluate_reports]; exact h
  · rw [evaluate_reports]; exact ht

end Sys2Proof.Machine
end

