-- ==== Sys2Proof/Proofs/Command.lean ====
section
/-! PROOFS. The statements of 44_command_codec.md. -/

namespace Sys2Proof
open Machine

/-! ### The accept step -/

/-- Settles O22: each operation passes its checks, and the frame loaded is the one of R183 to R185. -/
theorem operationsAccepted : Obligations.OperationsAccepted := by
  intro s ns addr value hp
  simp only [exec_connect, exec_version, exec_read, exec_write]
  refine ⟨?_, ?_, fun hc => ?_, fun hc h0 h1 => ?_⟩
  · rw [offer_ungated .connect (.inl rfl) ns addr value s hp]
    exact ⟨_, _, rfl⟩
  · rw [offer_ungated .version (.inr rfl) ns addr value s hp]
    exact ⟨_, _, rfl⟩
  · rw [offer_accepted .read ns addr value s hp (fun _ => hc) nofun]
    exact ⟨_, _, rfl⟩
  · rw [offer_accepted .write ns addr value s hp (fun _ => hc) (fun _ => ⟨h0, h1⟩), ← valLo_valueOf,
      ← valHi_valueOf value h0 h1]
    exact ⟨_, _, rfl⟩

/-- Settles O23: an error of READ or WRITE leaves the connection. -/
theorem unconnectedOperationsRefused : Obligations.UnconnectedOperationsRefused := by
  intro s ns addr value hp hc
  simp only [exec_connect, exec_version, exec_read, exec_write]
  refine ⟨?_, ?_, ⟨_, rfl, ?_⟩, ⟨_, rfl, ?_⟩⟩
  · rw [offer_unconnected .read ns addr value s hp (.inl rfl) hc]; rfl
  · rw [offer_unconnected .write ns addr value s hp (.inr rfl) hc]; rfl
  · rw [offer_ungated .version (.inr rfl) ns addr value s hp, latch_phase]
  · rw [offer_ungated .connect (.inl rfl) ns addr value s hp, latch_phase]

/-- Settles O24: the range check is WRITE's alone. -/
theorem writeOutOfRangeRefused : Obligations.WriteOutOfRangeRefused := by
  intro s ns addr value hp hc
  simp only [exec_read, exec_write]
  refine ⟨fun hr => ?_, fun h0 h1 => ⟨_, rfl, ?_⟩, ⟨_, rfl, ?_⟩⟩
  · rw [offer_out_of_range ns addr value s hp hc hr]; rfl
  · rw [offer_accepted .write ns addr value s hp (fun _ => hc) (fun _ => ⟨h0, h1⟩), latch_phase]
  · rw [offer_accepted .read ns addr value s hp (fun _ => hc) nofun, latch_phase]

/-! ### Failures, waiting and the result -/

/-- Settles O28. -/
theorem transmitFailureEndsOperation : Obligations.TransmitFailureEndsOperation := by
  intro s more hquiet hp hq ha
  exact ⟨_, _, step_transmitFail s more hquiet hp hq ha⟩

/-- Settles O40: the failure is the item that the step takes. -/
theorem receiveFailureEndsOperation : Obligations.ReceiveFailureEndsOperation := by
  intro s more hquiet hp hx
  have htake : takeOne s = receiveFail { s with rx := more } := by simp only [takeOne, hx]
  rw [step_takeOne s hquiet hp, htake]
  exact ⟨_, _, rfl⟩

/-- Settles O44. -/
theorem engineWaitsUnlessEnabled : Obligations.EngineWaitsUnlessEnabled :=
  fun s hquiet => ⟨step_waits_in_idle s hquiet, step_waits_in_tx s hquiet, step_waits_in_rx s hquiet,
    step_waits_in_res s hquiet⟩

/-- Settles O45. -/
theorem resultStepReturnsToIdle : Obligations.ResultStepReturnsToIdle := by
  intro s n hquiet hp ht
  exact ⟨_, _, _, _, _, _, _, _, _, step_giveResult s n hquiet hp ht⟩

/-- Settles O51: a reset is always answered, and the counting down of `rst` leaves the invariant. -/
theorem goodStateAlwaysSteps : Obligations.GoodStateAlwaysSteps := by
  intro s hgood hb
  cases hr : resetNow s with
  | true => exact ⟨_, if_pos hr⟩
  | false =>
    rw [step_engine s hr]
    exact exists_engineStep_next (tick s) (hgood.congr rfl) hb

/-! ### Whole operations -/

/-- Settles O58: the run ends with the result of the evaluation, which is the report of the operands accepted. -/
theorem operationRunsAsItsPseudocode : Obligations.OperationRunsAsItsPseudocode := by
  intro s op ns addr value more bs buf st answers later n hquiet hp ho hgate hrange ha hc hx ht
  obtain ⟨ck, m, hrun⟩ := runsTo_operation s op ns addr value more bs buf st answers later n hquiet hp ho hgate hrange ha hc
    hx ht
  have hreport := report_latch op ns addr value s buf
  refine ⟨_, hrun, ?_⟩
  rw [evaluate_reports]
  refine ⟨rfl, rfl, rfl, rfl, rfl, rfl, ?_, rfl, rfl, rfl, ?_, ?_⟩
  · exact congrArg (fun r => s.results ++ [reported r]) hreport
  · by_cases hcon : op = .connect
    · subst hcon; exact congrArg (fun r => r.1 == .ok) hreport
    · simp [hcon]
  · by_cases hcon : op = .connect
    · subst hcon; exact congrArg (fun r => r.2.2.getD []) hreport
    · simp [hcon]

/-- Settles O59: the response is a whole frame, which completes at its last byte, and its report names no field. -/
theorem readReturnsNextReadResponse : Obligations.ReadReturnsNextReadResponse := by
  intro s ns addr value more l h answers later n hquiet hp hconn ho ha hx ht
  obtain ⟨t, hrun, hidle, _, _, hrx, _, hsent, hres, _⟩ := operationRunsAsItsPseudocode s .read ns addr value more _ _ _
    answers later n hquiet hp ho (fun _ => hconn) nofun ha (collectUntil_frame 0xFF 3 [l, h]) hx ht
  have hreport : report .read ns addr (valueOf value) (image 0xFF 3 [l, h]) = (.ok, some (joinValue l h), none) := by
    refine (report_rspR ns addr (valueOf value) l h (cksum ([0xFF, 0x03] ++ [l, h]))).trans ?_
    rw [if_pos (cksum_rspR l h), if_pos (cksum_rspR l h)]
  rw [hreport] at hres
  exact ⟨t, hrun, hidle, hsent, hrx, hres⟩

end Sys2Proof
end

