-- ==== Sys2Proof/Proofs/WriteConfirmRules.lean ====
section
/-! PROOFS. When the write-confirmation validator reports `OK`; and which operations leave the request latch as it is, so that
the confirmation is compared with the operands that were sent. -/

namespace Sys2Proof.Machine

/-! ### The validator -/

/-- A payload of 4 bytes is compared byte by byte (R213, R214). -/
theorem write_payload_confirms_iff (ns : Namespace) (addr : Byte) (v : ConfigValue) (p : Bytes) :
    (p.length = 4 ∧ (byteAt p 0 = nsByte ns ∧ byteAt p 1 = addr) ∧ joinValue (byteAt p 2) (byteAt p 3) = v) ↔
      p = [nsByte ns, addr, valLo v, valHi v] := by
  rw [joinValue_eq_iff]
  constructor
  · rintro ⟨hlen, ⟨hn, ha⟩, hl, hh⟩
    obtain ⟨n, a, l, h, rfl⟩ := List.length_eq_four.mp hlen
    rw [← hn, ← ha, ← hl, ← hh]
    rfl
  · rintro rfl
    exact ⟨rfl, ⟨rfl, rfl⟩, rfl, rfl⟩

/-- WRITE reports `OK` for the buffers that CHECKFRAME passes with WRITE's command and the operands sent as the payload
(R211 to R215). -/
theorem report_write_ok_iff (ns : Namespace) (addr : Byte) (v : ConfigValue) (f : Bytes) :
    (report .write ns addr v f).1 = .ok ↔ checkFrame f = .ok CMD_WRITE [nsByte ns, addr, valLo v, valHi v] := by
  unfold report
  cases hc : checkFrame f with
  | error e => simp [checkFrame_error_ne f e hc]
  | ok c p =>
    rw [CheckResult.ok.injEq, ← write_payload_confirms_iff]
    simp only
    split_ifs with hcmd hlen hop hval
    · exact iff_of_false nofun fun ⟨hc, _⟩ => hcmd hc
    · exact iff_of_false nofun fun ⟨_, hl, _⟩ => hlen hl
    · exact iff_of_false nofun fun ⟨_, _, ⟨hn, ha⟩, _⟩ => hop.elim (absurd hn) (absurd ha)
    · exact iff_of_false nofun fun ⟨_, _, _, hv⟩ => hval hv
    · exact iff_of_true rfl ⟨not_not.mp hcmd, not_not.mp hlen, by simpa using hop, not_not.mp hval⟩

/-! ### The request latch -/

/-- The request latch (R21 to R24). -/
def requestLatch (s : State) : Op × Namespace × Byte × ConfigValue := (s.reqOp, s.reqNs, s.reqAddr, s.reqVal)

theorem requestLatch_eq_iff (s t : State) :
    requestLatch t = requestLatch s ↔
      t.reqOp = s.reqOp ∧ t.reqNs = s.reqNs ∧ t.reqAddr = s.reqAddr ∧ t.reqVal = s.reqVal := by
  simp only [requestLatch, Prod.mk.injEq]

/-- Outside `Idle` an offered operation waits with its operands (R43). -/
theorem requestLatch_offer (op : Op) (ns : Namespace) (addr : Byte) (value : Int) (s : State) (hp : s.phase ≠ .idle) :
    requestLatch (offer op ns addr value s) = requestLatch s := by
  rw [offer_outside_idle op ns addr value s hp]
  rfl

@[simp] theorem requestLatch_handOver (b : Byte) (rest : Bytes) (s : State) :
    requestLatch (handOver b rest s) = requestLatch s := by
  cases rest with
  | nil => rw [handOver_last]; rfl
  | cons c rest => rw [handOver_more]; rfl

theorem requestLatch_transmit (s t : State) (h : transmit s = .next t) : requestLatch t = requestLatch s := by
  obtain ⟨b, rest, _, ⟨_, rfl⟩ | ⟨_, _, rfl⟩ | ⟨_, _, rfl⟩⟩ := transmit_next s t h
  · rfl
  · rfl
  · exact requestLatch_handOver b rest _

theorem requestLatch_transmitFrame (wire : Bytes) (s t : State) (h : transmitFrame wire s = .next t) :
    requestLatch t = requestLatch s := by
  unfold transmitFrame at h
  split at h
  next =>
    exact transmitMany_induct (fun u => requestLatch u = requestLatch s)
      (fun u w _ hu hw => (requestLatch_transmit u w hw).trans hu) _ s t rfl h
  next => cases h; rfl

/-- The evaluation reads the request latch and writes the result latch (R197). -/
@[simp] theorem requestLatch_evaluate (s : State) : requestLatch (evaluate s) = requestLatch s := by
  rw [evaluate_reports]
  rfl

@[simp] theorem requestLatch_receiveByte (b : Byte) (s : State) : requestLatch (receiveByte b s) = requestLatch s := by
  rcases receiveByte_cases b s with ⟨_, _, _, _, e⟩ | ⟨_, _, _, _, e⟩ <;> rw [e]
  · rfl
  · exact requestLatch_evaluate _

@[simp] theorem requestLatch_takeOne (s : State) : requestLatch (takeOne s) = requestLatch s := by
  rcases takeOne_cases s with ⟨_, e⟩ | ⟨_, _, e⟩ | ⟨b, _, _, e⟩ <;> rw [e]
  · rfl
  · exact requestLatch_receiveByte b _

@[simp] theorem requestLatch_receiveBytes (bs : Bytes) (s : State) :
    requestLatch (receiveBytes bs s) = requestLatch s :=
  takeMany_induct (fun u => requestLatch u = requestLatch s) (fun u _ hu => (requestLatch_takeOne u).trans hu)
    bs.length (arrive bs s) rfl

/-- Outside `Idle` no instruction run by itself writes the request latch. -/
theorem requestLatch_exec (i : Instr) (s t : State) (hp : s.phase ≠ .idle) (h : exec i s = .next t) :
    requestLatch t = requestLatch s := by
  rcases exec_cases i s t h with ⟨_, _, _, _, rfl⟩ | ⟨wire, hw⟩ | ⟨_, rfl⟩ | ⟨_, _, rfl⟩ | ⟨_, _, _, rfl⟩
  · exact requestLatch_offer _ _ _ _ s hp
  · exact requestLatch_transmitFrame wire s t hw
  · exact requestLatch_receiveBytes _ s
  · exact requestLatch_receiveByte _ s
  · rfl

/-- Of the steps of R199, the accept step in `Idle` and the result step in `Res` alone write the request latch
(R192, R198). -/
theorem requestLatch_engineStep (s t : State) (hb : s.bench = []) (hp : s.phase = .tx ∨ s.phase = .rx)
    (h : engineStep s = .next t) : requestLatch t = requestLatch s := by
  rcases hp with hp | hp
  · rw [engineStep_tx s hb hp] at h
    exact requestLatch_transmit s t h
  · rw [engineStep_rx s hb hp] at h
    cases h
    exact requestLatch_takeOne s

end Sys2Proof.Machine
end

