-- ==== Sys2Proof/Proofs/WriteConfirm.lean ====
section
/-! PROOFS. The statements of 45_write_confirm.md. -/

namespace Sys2Proof
open Machine

/-- Settles O38: the validator's one payload, in the one buffer that CHECKFRAME passes with it. -/
theorem writeConfirmedOnlyByItsEcho : Obligations.WriteConfirmedOnlyByItsEcho := by
  intro ns addr v f hlast
  have hsum : cksum ([0xFF, CMD_WRITE] ++ [nsByte ns, addr, valLo v, valHi v]) =
      0xFF + 0x04 + nsByte ns + addr + valLo v + valHi v := cksum_rspW _ _ _ _
  rw [report_write_ok_iff, checkedBuffersAreImages f _ _ hlast, hsum]
  rfl

/-- Settles O55: without reset the step is an item of the bench port or a step of R199. -/
theorem requestLatchStable : Obligations.RequestLatchStable := by
  intro s t h hr hp
  rw [← requestLatch_eq_iff]
  rcases step_cases s t h with ⟨hreset, _⟩ | ⟨_, _, more, i, _, _, he⟩ | ⟨_, hb, he⟩
  · simp [hr] at hreset
  · have hbusy : s.phase ≠ .idle := by rcases hp with hp | hp <;> simp [hp]
    exact requestLatch_exec i { tick s with bench := more } t hbusy he
  · exact requestLatch_engineStep (tick s) t hb hp he

end Sys2Proof
end

