-- ==== Sys2Proof/Proofs/ConnectionRules.lean ====
section
/-! PROOFS. What the operations on the state do to `CONNECTED` and `VERCACHE` (R32, R233, R234): they keep both, or end a CONNECT
with its verdict. -/

namespace Sys2Proof.Machine

/-! ### The connection and the end of a CONNECT -/

/-- The connection (R31, R32). -/
def connection (s : State) : Bool × Bytes := (s.connected, s.verCache)

theorem connection_eq_iff (s t : State) :
    connection t = connection s ↔ t.connected = s.connected ∧ t.verCache = s.verCache := by
  simp only [connection, Prod.mk.injEq]

/-- A CONNECT has ended in `t`, connected with the identifier in the cache or unconnected by an error with the cache empty
(R233, R234). -/
def ConnectEnded (t : State) : Prop :=
  t.phase = .res ∧
    (t.connected = true ∧ t.resStatus = 0 ∧ t.verCache = Config.fwId ∨
      t.connected = false ∧ t.resStatus ≠ 0 ∧ t.verCache = [])

/-- From `s` to `t` the connection stays, or the CONNECT in progress in `s` has ended in `t`. -/
def KeepsOrEndsConnect (s t : State) : Prop :=
  connection t = connection s ∨ (s.reqOp = .connect ∧ ConnectEnded t)

theorem KeepsOrEndsConnect.refl (s : State) : KeepsOrEndsConnect s s := .inl rfl

/-- Before the end of an operation its connection is still the old one, and the operation in progress the same. -/
theorem KeepsOrEndsConnect.trans {s u t : State} (h : KeepsOrEndsConnect s u) (hu : u.phase ≠ .res)
    (hlatch : requestLatch u = requestLatch s) (h' : KeepsOrEndsConnect u t) : KeepsOrEndsConnect s t := by
  have hop : u.reqOp = s.reqOp := congrArg Prod.fst hlatch
  rcases h with hkept | ⟨_, hended, _⟩
  · exact h'.imp (fun h => h.trans hkept) fun ⟨ho, ht⟩ => ⟨hop.symm.trans ho, ht⟩
  · exact absurd hended hu

/-! ### Errors and evaluation -/

/-- An error of READ, WRITE or VERSION loses no connection (R235, R262). -/
theorem connection_raise (op : Op) (e : Status) (s : State) (hop : op ≠ .connect) :
    connection (raise op e s) = connection s := by
  simp [connection, hop]

/-- An error of CONNECT ends it unconnected (R233, R262). -/
theorem connectEnded_raise (e : Status) (s : State) (he : e ≠ .ok) : ConnectEnded (raise .connect e s) :=
  ⟨rfl, .inr ⟨rfl, fun h0 => he ((statusCode_ok_iff e).mp h0), rfl⟩⟩

theorem keepsOrEndsConnect_raise (e : Status) (s : State) (he : e ≠ .ok) :
    KeepsOrEndsConnect s (raise s.reqOp e s) := by
  by_cases hop : s.reqOp = .connect
  · exact .inr ⟨hop, hop ▸ connectEnded_raise e s he⟩
  · exact .inl (connection_raise s.reqOp e s hop)

/-- The evaluation of a CONNECT connects with the identifier and `OK`, or disconnects with an error (R232, R233). -/
theorem connectEnded_evaluate (s : State) (hop : s.reqOp = .connect) : ConnectEnded (evaluate s) := by
  obtain ⟨herr, _, hid⟩ := report_shape .connect s.reqNs s.reqAddr s.reqVal s.rxbuf
  rw [evaluate_reports, hop]
  by_cases hok : (report .connect s.reqNs s.reqAddr s.reqVal s.rxbuf).1 = .ok
  · exact ⟨rfl, .inl ⟨by simp [hok], (statusCode_ok_iff _).mpr hok, by simp [hid rfl hok]⟩⟩
  · exact ⟨rfl, .inr ⟨by simp [hok], fun h0 => hok ((statusCode_ok_iff _).mp h0), by simp [herr hok]⟩⟩

theorem keepsOrEndsConnect_evaluate (s : State) : KeepsOrEndsConnect s (evaluate s) := by
  by_cases hop : s.reqOp = .connect
  · exact .inr ⟨hop, connectEnded_evaluate s hop⟩
  · rw [evaluate_reports]
    exact .inl (by simp [connection, hop])

/-! ### Accepting -/

/-- No offered operation touches the connection: the gate and the range check refuse READ and WRITE alone (R180, R181). -/
theorem connection_offer (op : Op) (ns : Namespace) (addr : Byte) (value : Int) (s : State) :
    connection (offer op ns addr value s) = connection s := by
  rcases offer_cases op ns addr value s with ⟨_, e⟩ | ⟨_, hop, x, _, e⟩ | ⟨_, _, e⟩ <;> rw [e]
  · rfl
  · exact connection_raise op x s (by rcases hop with rfl | rfl <;> simp)
  · rfl

/-! ### Transmitting -/

theorem connection_handOver (b : Byte) (rest : Bytes) (s : State) :
    connection (handOver b rest s) = connection s := by
  cases rest with
  | nil => rw [handOver_last]; rfl
  | cons c rest => rw [handOver_more]; rfl

/-- Only a transport failure ends a CONNECT in `Tx` (R194). -/
theorem keepsOrEndsConnect_transmit (s t : State) (h : transmit s = .next t) : KeepsOrEndsConnect s t := by
  obtain ⟨b, rest, _, ⟨_, rfl⟩ | ⟨_, _, rfl⟩ | ⟨_, _, rfl⟩⟩ := transmit_next s t h
  · exact .refl _
  · exact keepsOrEndsConnect_raise .transportError s (by simp)
  · exact .inl (connection_handOver b rest _)

/-- A request frame run by itself is transmitted in `Tx` or does nothing (R139). -/
theorem keepsOrEndsConnect_transmitFrame (wire : Bytes) (s t : State) (h : transmitFrame wire s = .next t) :
    connection t = connection s ∨ (s.phase = .tx ∧ KeepsOrEndsConnect s t) := by
  unfold transmitFrame at h
  split at h
  next hsending =>
    have hsteps := transmitMany_induct (fun u => requestLatch u = requestLatch s ∧ KeepsOrEndsConnect s u)
      (fun u v hp ⟨hlatch, hu⟩ huv => ⟨(requestLatch_transmit u v huv).trans hlatch,
        hu.trans (by simp [hp]) hlatch (keepsOrEndsConnect_transmit u v huv)⟩) _ s t ⟨rfl, .refl s⟩ h
    exact .inr ⟨hsending.1, hsteps.2⟩
  next => cases h; exact .inl rfl

/-! ### Receiving -/

/-- A received byte leaves the connection to the evaluation (R152). -/
theorem keepsOrEndsConnect_receiveByte (b : Byte) (s : State) : KeepsOrEndsConnect s (receiveByte b s) := by
  rcases receiveByte_cases b s with ⟨_, _, _, _, e⟩ | ⟨st, buf, ck, n, e⟩ <;> rw [e]
  · exact .inl rfl
  · exact keepsOrEndsConnect_evaluate { s with rxst := st, rxbuf := buf, ck := ck, free := n }

theorem keepsOrEndsConnect_takeOne (s : State) : KeepsOrEndsConnect s (takeOne s) := by
  rcases takeOne_cases s with ⟨_, e⟩ | ⟨more, _, e⟩ | ⟨b, more, _, e⟩ <;> rw [e]
  · exact .refl s
  · exact keepsOrEndsConnect_raise .transportError s (by simp)
  · exact keepsOrEndsConnect_receiveByte b { s with rx := more }

/-- Bytes that arrive are taken in `Rx` alone (R42, R303). -/
theorem keepsOrEndsConnect_receiveBytes (bs : Bytes) (s : State) :
    connection (receiveBytes bs s) = connection s ∨ (s.phase = .rx ∧ KeepsOrEndsConnect s (receiveBytes bs s)) := by
  by_cases hp : s.phase = .rx
  · have htaken := takeMany_induct (fun u => requestLatch u = requestLatch s ∧ KeepsOrEndsConnect s u)
      (fun u hp ⟨hlatch, hu⟩ => ⟨(requestLatch_takeOne u).trans hlatch,
        hu.trans (by simp [hp]) hlatch (keepsOrEndsConnect_takeOne u)⟩) bs.length (arrive bs s) ⟨rfl, .inl rfl⟩
    exact .inr ⟨hp, htaken.2⟩
  · rw [receiveBytes_outside_rx bs s hp]
    exact .inl rfl

/-! ### The instruction and the step -/

/-- An instruction run by itself keeps the connection or ends a CONNECT that is in `Tx` or `Rx`. -/
theorem exec_connection (i : Instr) (s t : State) (h : exec i s = .next t) :
    connection t = connection s ∨ ((s.phase = .tx ∨ s.phase = .rx) ∧ KeepsOrEndsConnect s t) := by
  rcases exec_cases i s t h with ⟨_, _, _, _, rfl⟩ | ⟨wire, hw⟩ | ⟨bs, rfl⟩ | ⟨b, hp, rfl⟩ | ⟨_, _, _, rfl⟩
  · exact .inl (connection_offer _ _ _ _ s)
  · exact (keepsOrEndsConnect_transmitFrame wire s t hw).imp_right fun ⟨hp, ht⟩ => ⟨.inl hp, ht⟩
  · exact (keepsOrEndsConnect_receiveBytes bs s).imp_right fun ⟨hp, ht⟩ => ⟨.inr hp, ht⟩
  · exact .inr ⟨.inr hp, keepsOrEndsConnect_receiveByte b s⟩
  · exact .inl rfl

/-- Of the steps of R199 the transmit and receive steps alone can end a CONNECT. -/
theorem engineStep_connection (s t : State) (hb : s.bench = []) (h : engineStep s = .next t) :
    connection t = connection s ∨ ((s.phase = .tx ∨ s.phase = .rx) ∧ KeepsOrEndsConnect s t) := by
  rcases engineStep_cases s t hb h with
    ⟨_, rfl | ⟨_, more, _, rfl⟩⟩ | ⟨hp, htx⟩ | ⟨hp, rfl⟩ | ⟨_, rfl | ⟨_, _, rfl⟩⟩
  · exact .inl rfl
  · exact .inl (connection_offer _ _ _ _ { s with offers := more })
  · exact .inr ⟨.inl hp, keepsOrEndsConnect_transmit s t htx⟩
  · exact .inr ⟨.inr hp, keepsOrEndsConnect_takeOne s⟩
  · exact .inl rfl
  · exact .inl rfl

/-- Without reset a step keeps the connection or ends a CONNECT that is in `Tx` or `Rx` (R234). -/
theorem step_connection (s t : State) (hr : resetNow s = false) (h : step s = .next t) :
    connection t = connection s ∨ ((s.phase = .tx ∨ s.phase = .rx) ∧ KeepsOrEndsConnect s t) := by
  rcases step_cases s t h with ⟨hreset, _⟩ | ⟨_, _, more, i, _, _, he⟩ | ⟨_, hb, he⟩
  · simp [hr] at hreset
  · exact exec_connection i { tick s with bench := more } t he
  · exact engineStep_connection (tick s) t hb he

/-! ### The incompatible response -/

/-- CONNECT reports any other identifier as incompatible, whatever the response's command byte (R231, R232). -/
theorem report_connect_incompatible (ns : Namespace) (addr : Byte) (v : ConfigValue) (c : Byte) (p : Bytes)
    (hp : p ≠ Config.fwId) :
    report .connect ns addr v (image DEV_ID c p) = (.incompatibilityError, none, none) := by
  rw [report, checkFrame_image, if_neg (not_not.mpr rfl)]
  exact if_neg hp

end Sys2Proof.Machine
end

