-- ==== Sys2Proof/Proofs/Connection.lean ====
section
/-! PROOFS. The statements of 46_connection.md. -/

namespace Sys2Proof
open Machine

/-- Settles O52: the one change of the connection that a step without reset can make is the end of a CONNECT. -/
theorem onlyConnectChangesConnection : Obligations.OnlyConnectChangesConnection := by
  intro s t h hr hchanged
  have hne : connection t ≠ connection s := fun e =>
    have ⟨hconn, hcache⟩ := (connection_eq_iff s t).mp e
    hchanged.elim (absurd hconn) (absurd hcache)
  obtain ⟨hbusy, hends⟩ := (step_connection s t hr h).resolve_left hne
  obtain ⟨hop, hres, hverdict⟩ := hends.resolve_left hne
  exact ⟨hop, hbusy, hres, hverdict⟩

/-- Settles O60: the run of the operation ends with the report of the incompatible response, and in the unconnected idle state
that it leaves the gate refuses READ and WRITE (R180). -/
theorem incompatibleFirmwareDisconnects : Obligations.IncompatibleFirmwareDisconnects := by
  intro s c p more answers later n ns addr value hquiet hidle ho hp ha hx ht
  have hlen : (requestFrame .connect ns addr (valueOf value)).length = 6 := (requestLengths.2.1 ns addr _).1
  obtain ⟨t, hrun, hidle', _, _, _, _, _, hresults, _, _, _, hconn, hcache⟩ :=
    operationRunsAsItsPseudocode s .connect ns addr value more _ _ _ answers later n hquiet hidle ho nofun nofun
      (by rw [hlen]; exact ha) (collectUntil_frame 0xFF c p) hx ht
  have hreport : report .connect ns addr (valueOf value) (image 0xFF c p) = (.incompatibilityError, none, none) :=
    report_connect_incompatible ns addr _ c p hp
  rw [hreport] at hresults hconn hcache
  rw [hlen] at hrun
  have hgate (ns' : Namespace) (addr' : Byte) (value' : Int) :=
    unconnectedOperationsRefused t ns' addr' value' hidle' hconn
  refine ⟨t, hrun, hidle', hresults, hconn, hcache, fun ns' addr' value' => ?_, fun ns' addr' value' => ?_⟩
  · obtain ⟨hread, _⟩ := hgate ns' addr' value'
    exact ⟨_, hread, rfl, rfl, rfl⟩
  · obtain ⟨_, hwrite, _⟩ := hgate ns' addr' value'
    exact ⟨_, hwrite, rfl, rfl, rfl⟩

end Sys2Proof
end

