-- ==== Sys2Proof/Proofs/ExceptionRules.lean ====
section
/-! PROOFS. The entries of errors (R262) and their priority (R264): what a step leaves in the result latch, the results given and
the connection when it enters `Res`; WRITE's comparison of a payload with its operands, part by part. -/

namespace Sys2Proof.Machine

/-! ### Entering `Res` -/

/-- From `s` to `t` no result is given; and if `t` has one to give, the latch has the shape of R30, and a CONNECT that was in
`Tx` or `Rx` has ended (R190, R233, R262). -/
def EntersResult (s t : State) : Prop :=
  t.results = s.results ∧
    (t.phase = .res → LatchShape t ∧ (s.phase = .tx ∨ s.phase = .rx → s.reqOp = .connect → ConnectEnded t))

/-- A step that stays away from `Res` has only the results to keep. -/
theorem entersResult_of_phase_ne {s t : State} (hp : t.phase ≠ .res) (hr : t.results = s.results) : EntersResult s t :=
  ⟨hr, fun hres => absurd hres hp⟩

theorem EntersResult.refl {s : State} (hp : s.phase ≠ .res) : EntersResult s s := entersResult_of_phase_ne hp rfl

/-- Transfers of one transmission or reception, which go on with the operation that is in progress. -/
theorem EntersResult.trans {s u t : State} (h : EntersResult s u) (hu : u.phase = .tx ∨ u.phase = .rx)
    (hlatch : requestLatch u = requestLatch s) (h' : EntersResult u t) : EntersResult s t := by
  obtain ⟨hr, _⟩ := h
  obtain ⟨hr', henters⟩ := h'
  have hop : u.reqOp = s.reqOp := congrArg Prod.fst hlatch
  refine ⟨hr'.trans hr, fun hres => ?_⟩
  obtain ⟨hshape, hended⟩ := henters hres
  exact ⟨hshape, fun _ ho => hended hu (hop.trans ho)⟩

/-! ### Errors and evaluation -/

/-- R262, for the operation in progress. -/
theorem entersResult_raise (e : Status) (s : State) (he : e ≠ .ok) : EntersResult s (raise s.reqOp e s) :=
  ⟨rfl, fun _ => ⟨latchShape_raise s.reqOp e s he, fun _ ho => ho ▸ connectEnded_raise e s he⟩⟩

theorem entersResult_evaluate (s : State) : EntersResult s (evaluate s) :=
  ⟨by rw [evaluate_reports], fun _ => ⟨latchShape_evaluate s, fun _ ho => connectEnded_evaluate s ho⟩⟩

/-! ### Accepting -/

/-- A refusal happens in `Idle`, with no operation under way whose connection it could lose (R180, R181, R193). -/
theorem entersResult_offer (op : Op) (ns : Namespace) (addr : Byte) (value : Int) (s : State) (hp : s.phase ≠ .res) :
    EntersResult s (offer op ns addr value s) := by
  rcases offer_cases op ns addr value s with ⟨_, e⟩ | ⟨hidle, _, x, hx, e⟩ | ⟨_, _, e⟩ <;> rw [e]
  · exact entersResult_of_phase_ne hp rfl
  · have hne : x ≠ .ok := by rcases hx with rfl | rfl <;> simp
    exact ⟨rfl, fun _ => ⟨latchShape_raise op x s hne, fun hbusy => by simp [hidle] at hbusy⟩⟩
  · exact entersResult_of_phase_ne (by simp) rfl

/-! ### Transmitting -/

theorem entersResult_handOver (b : Byte) (rest : Bytes) (s : State) (hp : s.phase = .tx) :
    EntersResult s (handOver b rest s) := by
  cases rest with
  | nil => rw [handOver_last]; exact entersResult_of_phase_ne (by simp) rfl
  | cons c rest => rw [handOver_more]; exact entersResult_of_phase_ne (by simp [hp]) rfl

theorem entersResult_transmit (s t : State) (hp : s.phase = .tx) (h : transmit s = .next t) : EntersResult s t := by
  obtain ⟨b, rest, _, ⟨_, rfl⟩ | ⟨more, _, rfl⟩ | ⟨more, _, rfl⟩⟩ := transmit_next s t h
  · exact .refl (by simp [hp])
  · exact entersResult_raise .transportError s (by simp)
  · exact entersResult_handOver b rest { s with txAnswers := more } hp

theorem entersResult_transmitFrame (wire : Bytes) (s t : State) (hp : s.phase ≠ .res)
    (h : transmitFrame wire s = .next t) : EntersResult s t := by
  unfold transmitFrame at h
  split at h
  next =>
    have hsteps := transmitMany_induct (fun u => requestLatch u = requestLatch s ∧ EntersResult s u)
      (fun u v hu ⟨hlatch, hsu⟩ huv => ⟨(requestLatch_transmit u v huv).trans hlatch,
        hsu.trans (.inl hu) hlatch (entersResult_transmit u v hu huv)⟩) _ s t ⟨rfl, .refl hp⟩ h
    exact hsteps.2
  next => cases h; exact .refl hp

/-! ### Receiving -/

theorem entersResult_receiveByte (b : Byte) (s : State) (hp : s.phase = .rx) : EntersResult s (receiveByte b s) := by
  rcases receiveByte_cases b s with ⟨_, _, _, _, e⟩ | ⟨st, buf, ck, n, e⟩ <;> rw [e]
  · exact entersResult_of_phase_ne (by simp [hp]) rfl
  · exact entersResult_evaluate { s with rxst := st, rxbuf := buf, ck := ck, free := n }

theorem entersResult_takeOne (s : State) (hp : s.phase = .rx) : EntersResult s (takeOne s) := by
  rcases takeOne_cases s with ⟨_, e⟩ | ⟨more, _, e⟩ | ⟨b, more, _, e⟩ <;> rw [e]
  · exact .refl (by simp [hp])
  · exact entersResult_raise .transportError s (by simp)
  · exact entersResult_receiveByte b { s with rx := more } hp

theorem entersResult_receiveBytes (bs : Bytes) (s : State) (hp : s.phase ≠ .res) :
    EntersResult s (receiveBytes bs s) := by
  have htaken := takeMany_induct (fun u => requestLatch u = requestLatch s ∧ EntersResult s u)
    (fun u hu ⟨hlatch, hsu⟩ => ⟨(requestLatch_takeOne u).trans hlatch,
      hsu.trans (.inr hu) hlatch (entersResult_takeOne u hu)⟩)
    bs.length (arrive bs s) ⟨rfl, entersResult_of_phase_ne hp rfl⟩
  exact htaken.2

/-! ### The instruction and the step -/

/-- Every instruction run by itself outside `Res`. -/
theorem exec_entersResult (i : Instr) (s t : State) (hp : s.phase ≠ .res) (h : exec i s = .next t) :
    EntersResult s t := by
  rcases exec_cases i s t h with ⟨op, ns, addr, value, rfl⟩ | ⟨wire, hw⟩ | ⟨bs, rfl⟩ | ⟨b, hrx, rfl⟩ | ⟨_, _, _, rfl⟩
  · exact entersResult_offer op ns addr value s hp
  · exact entersResult_transmitFrame wire s t hp hw
  · exact entersResult_receiveBytes bs s hp
  · exact entersResult_receiveByte b s hrx
  · exact entersResult_of_phase_ne hp rfl

/-- The steps of R199 outside `Res`. -/
theorem engineStep_entersResult (s t : State) (hb : s.bench = []) (hp : s.phase ≠ .res) (h : engineStep s = .next t) :
    EntersResult s t := by
  rcases engineStep_cases s t hb h with
    ⟨_, rfl | ⟨c, more, _, rfl⟩⟩ | ⟨htx, ht⟩ | ⟨hrx, rfl⟩ | ⟨hres, _⟩
  · exact .refl hp
  · exact entersResult_offer _ _ _ _ { s with offers := more } hp
  · exact entersResult_transmit s t htx ht
  · exact entersResult_takeOne s hrx
  · exact absurd hres hp

/-- A reset ends in `Idle` and gives no result (R291); every other step from outside `Res` is an instruction or one of R199. -/
theorem step_entersResult (s t : State) (hp : s.phase ≠ .res) (h : step s = .next t) : EntersResult s t := by
  rcases step_cases s t h with ⟨_, rfl⟩ | ⟨_, _, more, i, _, _, he⟩ | ⟨_, hb, he⟩
  · exact entersResult_of_phase_ne (by simp) rfl
  · exact exec_entersResult i { tick s with bench := more } t hp he
  · exact engineStep_entersResult (tick s) t hb hp he

/-! ### The validator's comparisons -/

/-- The address comparison of R213, on the front of the payload. -/
theorem operands_ne_iff_take_two (p : Bytes) (hlen : p.length = 4) (n a : Byte) :
    byteAt p 0 ≠ n ∨ byteAt p 1 ≠ a ↔ p.take 2 ≠ [n, a] := by
  obtain ⟨b0, b1, b2, b3, rfl⟩ := List.length_eq_four.mp hlen
  simp [byteAt, ← not_and_or]

/-- The value comparison of R214, on the rest of the payload. -/
theorem joinValue_ne_iff_drop_two (p : Bytes) (hlen : p.length = 4) (v : ConfigValue) :
    joinValue (byteAt p 2) (byteAt p 3) ≠ v ↔ p.drop 2 ≠ [valLo v, valHi v] := by
  obtain ⟨b0, b1, b2, b3, rfl⟩ := List.length_eq_four.mp hlen
  simp [byteAt, joinValue_eq_iff]

end Sys2Proof.Machine
end

