-- ==== Sys2Proof/Proofs/Exceptions.lean ====
section
/-! PROOFS. The statements of 60_exceptions.md. -/

namespace Sys2Proof
open Machine

/-- Settles O39: the checks on a frame in their order, then those of the operation; WRITE's on a payload of 4 bytes. -/
theorem firstFailingCheckIsReported : Obligations.FirstFailingCheckIsReported := by
  intro op ns addr v
  refine ⟨fun f hbad => by rw [report, checkFrame_framing f hbad], fun sender c k p => ?_⟩
  rw [report_parts, apply_ite Prod.fst, apply_ite Prod.fst]
  refine if_congr Iff.rfl rfl (if_congr Iff.rfl rfl ?_)
  cases op with
  | version => rfl
  | connect => exact apply_ite Prod.fst _ _ _
  | read =>
    refine (apply_ite Prod.fst _ _ _).trans (if_congr Iff.rfl rfl ?_)
    exact apply_ite Prod.fst _ _ _
  | write =>
    refine (apply_ite Prod.fst _ _ _).trans (if_congr Iff.rfl rfl ?_)
    by_cases hlen : p.length = 4
    · simp only [apply_ite Prod.fst, operands_ne_iff_take_two p hlen, joinValue_ne_iff_drop_two p hlen]
    · rw [if_pos hlen, if_pos hlen]

/-- Settles O56: a step into `Res` with an error leaves a latch of an error's shape, and of the two ends of a CONNECT the
unconnected one. -/
theorem errorEntryLeavesNoValue : Obligations.ErrorEntryLeavesNoValue := by
  intro s t h hp hres herror
  obtain ⟨hresults, henters⟩ := step_entersResult s t hp h
  obtain ⟨⟨_, hempty, _⟩, hended⟩ := henters hres
  obtain ⟨hvalue, hdata⟩ := hempty herror
  refine ⟨hvalue, hdata, hresults, fun hbusy hop => ?_⟩
  obtain ⟨_, ⟨_, hok, _⟩ | ⟨hconn, _, hcache⟩⟩ := hended hbusy hop
  · exact absurd hok herror
  · exact ⟨hconn, hcache⟩

end Sys2Proof
end

