-- ==== Sys2Proof/Proofs/ResetAndHazards.lean ====
section
/-! PROOFS. The statement of 70_reset_and_hazards.md: the reset step (R290, R291). -/

namespace Sys2Proof.Machine

theorem resetNow_of_due (s : State) (more : List Nat) (h : s.resets = 0 :: more) : resetNow s = true := by
  rw [resetNow, h]; rfl

theorem resetServed_of_due (s : State) (more : List Nat) (h : s.resets = 0 :: more) :
    resetServed s = { s with resets := more } := by
  rw [resetServed, h]; rfl

/-- With `rst` asserted the step is the reset, whatever the phase, the channels and the bench port hold. -/
theorem step_reset (s : State) (h : resetNow s = true) : step s = .next (resetEngine (resetServed s)) :=
  if_pos h

end Sys2Proof.Machine

namespace Sys2Proof
open Machine

/-- Settles O46: no case split on `PHASE`, as `rst` is looked at before anything else; the unspecified registers are what
`resetEngine` leaves in them. -/
theorem resetOverridesEveryPhase : Obligations.ResetOverridesEveryPhase := by
  refine ⟨fun s more hdue => ?_, rfl, rfl, rfl, rfl, rfl, rfl⟩
  have hstep : step s = .next (resetEngine { s with resets := more }) := by
    rw [step_reset s (resetNow_of_due s more hdue), resetServed_of_due s more hdue]
  exact ⟨_, _, _, _, _, _, _, _, _, hstep⟩

end Sys2Proof
end
